-- ==== Sys2Proof/Word.lean ====
section
/-! DEFINITION. The word types of the core (00_scope R6, R8): every value is unsigned, every register and datapath value is 32 bits wide, and `+` on them wraps (R9), as `BitVec` addition does. -/

namespace Sys2Proof

/-- One byte of a message, a block or a digest (00_scope R10). -/
abbrev Byte := BitVec 8

/-- The `u32` of 00_scope R8: the width of every register and datapath value (R6). -/
abbrev Word := BitVec 32

/-- The `u64` of 00_scope R8: the message bit-length counter (10_state R29). -/
abbrev DWord := BitVec 64

/-- A byte offset from `BASE` in the 64-byte register window, `off[5:0]` (20_memory R50, R65). -/
abbrev Offset := BitVec 6

end Sys2Proof
end

