-- ==== Sys2Proof/Types.lean ====
section
/-! DEFINITION. The data that the decoder and the state share: four-register groups, blocks, bus requests, commands, error codes, and the moves of the agents. -/

namespace Sys2Proof

/-- Four 32-bit registers in order: H = (A, B, C, D) (10_state R21) or W = (a, b, c, d) (R24). -/
structure Quad where
  a : Word
  b : Word
  c : Word
  d : Word
  deriving DecidableEq, Repr

/-- A complete 64-byte block (00_scope R6, 10_state R27). -/
abbrev Block := Vector Byte 64

/-- One host transaction on the register window, as 20_memory R65 carries it: `write`, `off[5:0]`, `size` in bytes and `wdata`.
It is `MemWrite(off, size, wdata)` when `write`, else `MemRead(off, size)` (00_scope R11).
DESIGN CHOICE, safe: `size` may be any number of bytes, since R51 and R211 speak of every n other than 4 (notes/assumptions/16.md). -/
structure Request where
  write : Bool
  off   : Offset
  size  : Nat
  wdata : Word
  deriving DecidableEq, Repr

/-- The four commands of 30_encoding R81, with CNTM1 as ABSORB's operand (R80, R83). -/
inductive Command where
  | nop
  | init
  | absorb (cntm1 : BitVec 2)
  | finish
  deriving DecidableEq, Repr

/-- The named error codes of 60_exceptions R210. -/
inductive ErrorCode where
  | none
  | busy
  | illegal
  | length
  | address
  deriving DecidableEq, Repr

/-- What the checks of 60_exceptions R217 decide for one write. -/
inductive Verdict where
  /-- The write changes nothing and records nothing. -/
  | ignore
  /-- The write raises this error and is not performed. -/
  | reject (e : ErrorCode)
  /-- The write is performed. -/
  | perform
  deriving DecidableEq, Repr

/-- One thing the host does: a bus transaction, or the `WAIT` loop of 30_encoding R89. -/
inductive HostOp where
  | access (r : Request)
  | wait
  deriving DecidableEq, Repr

/-- Which agent moves next (00_scope R12, 20_memory R58), or an edge of the reset input (70_reset R240). -/
inductive Turn where
  | host
  | core
  | assertRst
  | releaseRst
  deriving DecidableEq, Repr

end Sys2Proof
end

