-- ==== Sys2Proof/Machine/Bytes.lean ====
section
/-! DEFINITION. Byte lanes and byte order (00_scope R10, 20_memory R56, R57): everything is little-endian. -/

namespace Sys2Proof.Machine

/-- Byte lane j of a register value: bits 8j+7 to 8j (20_memory R57). -/
def lane (v : Word) (j : Nat) : Byte := v.extractLsb' (8 * j) 8

/-- `le32` of four bytes, least significant first (00_scope R10). -/
def le32 (b0 b1 b2 b3 : Byte) : Word :=
  b0.setWidth 32 ||| (b1.setWidth 32 <<< 8) ||| (b2.setWidth 32 <<< 16) ||| (b3.setWidth 32 <<< 24)

/-- `le32bytes`, the inverse of `le32` (R10). -/
def le32bytes (v : Word) : List Byte := [lane v 0, lane v 1, lane v 2, lane v 3]

/-- `le64bytes`, the 8 bytes of a `u64` least significant first (R10). -/
def le64bytes (v : DWord) : List Byte := (List.range 8).map fun j => v.extractLsb' (8 * j) 8

/-- `zeros(n)`, n bytes of 0x00 (R10). -/
def zeros (n : Nat) : List Byte := List.replicate n 0

/-- The block made of the first 64 bytes of a sequence.
DESIGN CHOICE, safe: it is total, and every caller hands it at least 64 bytes (Laws/Padder.lean, notes/assumptions/13.md). -/
def blockOf (bs : List Byte) : Block := Vector.ofFn fun i => bs.getD i.val 0

/-- Word extraction: word j of a block is `le32(B[4j..4j+3])` (42_compressor R140). -/
def wordsOf (b : Block) : Vector Word 16 :=
  Vector.ofFn fun j => le32 b[4 * j.val] b[4 * j.val + 1] b[4 * j.val + 2] b[4 * j.val + 3]

end Sys2Proof.Machine
end

