-- ==== Sys2Proof/Machine/Tables.lean ====
section
/-! DEFINITION. The rotator and the constant tables T, S, IV and ID (40_rotator_tables, 10_state R40): read-only, with no write path (10_state R31). -/

namespace Sys2Proof.Machine

/-- Rotate left within 32 bits (40_rotator_tables R100).
For an amount outside 1..31, which the core never uses, the amount is taken modulo 32, as R101 allows (notes/assumptions/15.md). -/
def rotl (v : Word) (n : Nat) : Word := (v <<< (n % 32)) ||| (v >>> (32 - n % 32))

/-- T[0..15] (R105). -/
def tableT0 : Vector Word 16 :=
  #v[0xD76AA478, 0xE8C7B756, 0x242070DB, 0xC1BDCEEE, 0xF57C0FAF, 0x4787C62A, 0xA8304613, 0xFD469501,
     0x698098D8, 0x8B44F7AF, 0xFFFF5BB1, 0x895CD7BE, 0x6B901122, 0xFD987193, 0xA679438E, 0x49B40821]

/-- T[16..31] (R105). -/
def tableT1 : Vector Word 16 :=
  #v[0xF61E2562, 0xC040B340, 0x265E5A51, 0xE9B6C7AA, 0xD62F105D, 0x02441453, 0xD8A1E681, 0xE7D3FBC8,
     0x21E1CDE6, 0xC33707D6, 0xF4D50D87, 0x455A14ED, 0xA9E3E905, 0xFCEFA3F8, 0x676F02D9, 0x8D2A4C8A]

/-- T[32..47] (R105). -/
def tableT2 : Vector Word 16 :=
  #v[0xFFFA3942, 0x8771F681, 0x6D9D6122, 0xFDE5380C, 0xA4BEEA44, 0x4BDECFA9, 0xF6BB4B60, 0xBEBFBC70,
     0x289B7EC6, 0xEAA127FA, 0xD4EF3085, 0x04881D05, 0xD9D4D039, 0xE6DB99E5, 0x1FA27CF8, 0xC4AC5665]

/-- T[48..63] (R105). -/
def tableT3 : Vector Word 16 :=
  #v[0xF4292244, 0x432AFF97, 0xAB9423A7, 0xFC93A039, 0x655B59C3, 0x8F0CCC92, 0xFFEFF47D, 0x85845DD1,
     0x6FA87E4F, 0xFE2CE6E0, 0xA3014314, 0x4E0811A1, 0xF7537E82, 0xBD3AF235, 0x2AD7D2BB, 0xEB86D391]

/-- The round constants T[0..63] (R103 to R106). -/
def tableT : Vector Word 64 := tableT0 ++ tableT1 ++ tableT2 ++ tableT3

/-- Four rotation amounts, repeated over the 16 rounds of a group (R107, R108). -/
def shiftGroup (p q r t : Nat) : Vector Nat 16 := #v[p, q, r, t, p, q, r, t, p, q, r, t, p, q, r, t]

/-- The rotation amounts S[0..63] (R108). -/
def tableS : Vector Nat 64 := shiftGroup 7 12 17 22 ++ shiftGroup 5 9 14 20 ++ shiftGroup 4 11 16 23 ++ shiftGroup 6 10 15 21

/-- The initial digest state IV = (A0, B0, C0, D0) (R110). -/
def iv : Quad := { a := 0x67452301, b := 0xEFCDAB89, c := 0x98BADCFE, d := 0x10325476 }

/-- The constant that ID reads (10_state R40). -/
def idValue : Word := 0x0035444D

end Sys2Proof.Machine
end

