-- ==== Sys2Proof/Machine/Compressor.lean ====
section
/-! DEFINITION. The compression function of 42_compressor section 1, and the digest of a message as a pure function (R151, 43_commands R181, R182). -/

namespace Sys2Proof.Machine

/-- The round function F of round i (42_compressor R141 to R145). -/
def roundFunction (i : Nat) (b c d : Word) : Word :=
  if i < 16 then (b &&& c) ||| (~~~b &&& d)
  else if i < 32 then (d &&& b) ||| (~~~d &&& c)
  else if i < 48 then b ^^^ c ^^^ d
  else c ^^^ (b ||| ~~~d)

/-- The word index g of round i (R141 to R144). -/
def wordIndex (i : Nat) : Fin 16 :=
  if i < 16 then Fin.ofNat 16 i
  else if i < 32 then Fin.ofNat 16 (5 * i + 1)
  else if i < 48 then Fin.ofNat 16 (3 * i + 5)
  else Fin.ofNat 16 (7 * i)

/-- The sum that round i rotates: `F + a + T[i] + X[g]` (R147). -/
def roundSum (i : Fin 64) (x : Vector Word 16) (w : Quad) : Word :=
  roundFunction i w.b w.c w.d + w.a + tableT[i] + x[wordIndex i]

/-- One round: `(a, b, c, d) <- (d, b + rotl(F, S[i]), b, c)`, simultaneously (R147, R148). -/
def oneRound (i : Fin 64) (x : Vector Word 16) (w : Quad) : Quad :=
  { a := w.d, b := w.b + rotl (roundSum i x w) tableS[i], c := w.b, d := w.c }

/-- The working registers after rounds 0 to n - 1, in order (R149), for n at most 64. -/
def firstRounds (x : Vector Word 16) (w : Quad) : Nat → Quad
  | 0 => w
  | n + 1 => oneRound (Fin.ofNat 64 n) x (firstRounds x w n)

/-- The componentwise sum modulo 2^32 (R150). -/
def addQuad (p q : Quad) : Quad := { a := p.a + q.a, b := p.b + q.b, c := p.c + q.c, d := p.d + q.d }

/-- `compress(B, state)` (R151). -/
def compress (b : Block) (h : Quad) : Quad := addQuad h (firstRounds (wordsOf b) h 64)

/-- The left fold of `compress` over blocks, first block first (R151). -/
def compressAll (bs : List Block) (h : Quad) : Quad := bs.foldl (fun acc b => compress b acc) h

/-- The 16 digest bytes of a digest state: each register little-endian, in order A, B, C, D (43_commands R181). -/
def digestBytes (h : Quad) : List Byte := le32bytes h.a ++ le32bytes h.b ++ le32bytes h.c ++ le32bytes h.d

/-- A nibble as a lowercase hexadecimal character. -/
def hexDigit (n : BitVec 4) : Char := "0123456789abcdef".toList.getD n.toNat '0'

/-- A byte as two characters, the high nibble first (43_commands R182). -/
def hexByte (b : Byte) : List Char := [hexDigit (b.extractLsb' 4 4), hexDigit (b.extractLsb' 0 4)]

/-- `hex_digest()`, computed by the host from the digest bytes (R182). -/
def hexDigest (h : Quad) : List Char := (digestBytes h).flatMap hexByte

end Sys2Proof.Machine
end

