-- ==== Sys2Proof/Machine/State.lean ====
section
/-! DEFINITION. The state of the core as 10_state R20 lists it, the reset pin, the host's side and the model's own counter, and the state right after reset (R43). -/

namespace Sys2Proof.Machine

/-- Why the model stops. The hardware has no trap (60_exceptions R221): a rejected write is a next state. -/
inductive Fault where
  /-- The block splitter was given a length that is not a multiple of 64: the source's optional InvalidLengthError.
  Raised by FINISH only, and in no state at all, since the padder's length is always a multiple of 64 (41_padder_splitter R127, 60_exceptions R215, U6).
  Safe: the model stops where the hardware never arrives. -/
  | invalidLength
  deriving DecidableEq, Repr

/-- Why the model gives an instruction no meaning. -/
inductive Refusal where
  /-- Raised by `exec` for an instruction that has no meaning yet; every instruction has one, so no step answers it.
  Safe: the model stops where the hardware goes on. -/
  | notModelled (mnemonic : String)
  deriving DecidableEq, Repr

/-- The machine. The fields up to `errcode` are the core's state, exactly the elements of 10_state R20; the others are the reset pin, the host and the model's counter. -/
structure State where
  /-- H = (A, B, C, D), the digest registers (10_state R21). -/
  h : Quad
  /-- W = (a, b, c, d), the working registers (R24). -/
  w : Quad
  /-- X[0..15], the block word latch (R25). -/
  x : Vector Word 16
  /-- RND, the index of the next round (R26). -/
  rnd : Fin 64
  /-- ACTIVE: a block is being compressed (R26). -/
  active : Bool
  /-- PEND, the pending blocks, head first (R27). -/
  pend : List Block
  /-- BUF, the bytes of the partial block, first absorbed first (R28). -/
  buf : List Byte
  /-- LEN, the message length in bits (R29). -/
  len : DWord
  /-- FIN: a FINISH has been accepted and its last block has not finished (R30). -/
  fin : Bool
  /-- DATA_IN (R39). -/
  dataIn : Word
  /-- DONE (R41). -/
  done : Bool
  /-- ERR, sticky (R35, 60_exceptions R216). -/
  err : Bool
  /-- ERRCODE, the code of the first error since ERR was last cleared (60_exceptions R210, R212). -/
  errcode : BitVec 4
  /-- The level of the reset input `rst` (70_reset R240). -/
  rst : Bool
  /-- What the host will still do, in program order (20_memory R58). The model's own field. -/
  program : List HostOp
  /-- Which agent moves next; when it runs out, `nextTurn` decides (93 U3). The model's own field. -/
  turns : List Turn
  /-- The values the host's reads returned, newest first (70_reset R250). The model's own field. -/
  reads : List Word
  /-- How many free values have been used (93 U1). The model's own field. -/
  freeCount : Nat
  deriving DecidableEq, Repr

/-- The machine right after reset (10_state R43).
W and X, which R43 leaves unspecified, are 0: DESIGN CHOICE, unsafe (notes/assumptions/1.md).
The host's side and the model's counter are empty: DESIGN CHOICE (notes/assumptions/3.md to 7.md). -/
def State.reset : State where
  h := iv
  w := { a := 0, b := 0, c := 0, d := 0 }
  x := Vector.replicate 16 0
  rnd := 0
  active := false
  pend := []
  buf := []
  len := 0
  fin := false
  dataIn := 0
  done := false
  err := false
  errcode := 0
  rst := false
  program := []
  turns := []
  reads := []
  freeCount := 0

end Sys2Proof.Machine
end

