-- ==== Sys2Proof/Machine/CoreSteps.lean ====
section
/-! DEFINITION. The core's own steps, START and ROUND (42_compressor section 2). The host cannot issue them (30_encoding R90). -/

namespace Sys2Proof.Machine

/-- START, on the head block of PEND (42_compressor R152). -/
def startStep (b : Block) (s : State) : State :=
  { s with x := wordsOf b, w := s.h, rnd := 0, active := true }

/-- Whether the block that ends now is the last one a FINISH queued (R154). -/
def finishesMessage (s : State) : Bool := s.pend.tail.isEmpty && s.fin

/-- The end of a block, inside the ROUND step with RND = 63 (R154). -/
def endOfBlock (s : State) : State :=
  { s with
    h := addQuad s.h s.w
    pend := s.pend.tail
    active := false
    rnd := 0
    done := finishesMessage s || s.done
    fin := !finishesMessage s && s.fin }

/-- ROUND: one round with i = RND, and the end of the block in the same step when RND = 63 (R153). -/
def roundStep (s : State) : State :=
  if s.rnd.val < 63 then { s with w := oneRound s.rnd s.x s.w, rnd := s.rnd + 1 }
  else endOfBlock { s with w := oneRound s.rnd s.x s.w }

/-- The core's one enabled step, or none when it is idle (R155) or held in reset (70_reset R240). -/
def coreStep (s : State) : State :=
  if s.rst then s
  else if s.active then roundStep s
  else
    match s.pend with
    | [] => s
    | b :: _ => startStep b s

/-- n core steps with nothing in between. -/
def coreSteps : Nat → State → State
  | 0, s => s
  | n + 1, s => coreSteps n (coreStep s)

end Sys2Proof.Machine
end

