-- ==== Sys2Proof/Config.lean ====
section
/-! DEFINITION. What the spec leaves open (00_scope R7, 93_implementation_defined): each is a constant with no body, so no proof can use a value of it. -/

namespace Sys2Proof.Config

/-- `BASE`, the byte address of offset 0x00 in the host's address space: OPEN (00_scope R7, D2, U13). -/
opaque base : Nat

/-- The value of the k-th DIGEST read made while BUSY = 1: any 32-bit value, independently for each read (10_state R37, U1).
The model applies it to the counter `State.freeCount` (notes/assumptions/3.md). -/
opaque freeDigest : Nat → Word

/-- `CYCLES_PER_STEP` less one: OPEN, timing only (00_scope R7, D16, U14). -/
opaque cyclesPerStepLessOne : Nat

/-- `CYCLES_PER_STEP`, at least 1 (00_scope R7). No rule depends on it and the model keeps no time (70_reset R247). -/
def cyclesPerStep : Nat := cyclesPerStepLessOne + 1

end Sys2Proof.Config
end

