-- ==== Sys2Proof/Syntax.lean ====
section
/-! DEFINITION. The instructions: one constructor for each row of spec/opcode_table.json (30_encoding R90). -/

namespace Sys2Proof

/-- The commands (rows of format CMD), then the bus writes and the bus reads.
A bus row carries its access size in bytes: the table gives each size other than 4 its effect (a write is an ADDRESS error, a read returns 0). -/
inductive Instr where
  /-- NOP, word 0x00000000 (43_commands R171). -/
  | nop
  /-- INIT, word 0x00000001 (R172). -/
  | init
  /-- ABSORB n, word 0x00000002 with CNTM1 = n - 1 in bits 5:4 (R174, 30_encoding R83). -/
  | absorb (cntm1 : BitVec 2)
  /-- FINISH, word 0x00000003 (R175). -/
  | finish
  /-- A write to CMD, offset 0x00 (R170). -/
  | wrCmd (size : Nat) (v : Word)
  /-- A write to DATA_IN, offset 0x08 (R176). -/
  | wrDataIn (size : Nat) (v : Word)
  /-- A read of CMD, offset 0x00 (10_state R36). -/
  | rdCmd (size : Nat)
  /-- A read of STATUS, offset 0x04 (R35). -/
  | rdStatus (size : Nat)
  /-- A read of DATA_IN, offset 0x08 (R39). -/
  | rdDataIn (size : Nat)
  /-- A read of DIGEST0 (A), offset 0x10 (R37). -/
  | rdDigest0 (size : Nat)
  /-- A read of DIGEST1 (B), offset 0x14 (R37). -/
  | rdDigest1 (size : Nat)
  /-- A read of DIGEST2 (C), offset 0x18 (R37). -/
  | rdDigest2 (size : Nat)
  /-- A read of DIGEST3 (D), offset 0x1C (R37). -/
  | rdDigest3 (size : Nat)
  /-- A read of LEN_LO, offset 0x20 (R38). -/
  | rdLenLo (size : Nat)
  /-- A read of LEN_HI, offset 0x24 (R38). -/
  | rdLenHi (size : Nat)
  /-- A read of ID, offset 0x2C (R40). -/
  | rdId (size : Nat)
  /-- A read of the reserved offset 0x0C (20_memory R53). -/
  | rdReserved0C (size : Nat)
  /-- A read of the reserved offset 0x28 (R53). -/
  | rdReserved28 (size : Nat)
  /-- A read of the reserved offset 0x30 (R53). -/
  | rdReserved30 (size : Nat)
  /-- A read of the reserved offset 0x34 (R53). -/
  | rdReserved34 (size : Nat)
  /-- A read of the reserved offset 0x38 (R53). -/
  | rdReserved38 (size : Nat)
  /-- A read of the reserved offset 0x3C (R53). -/
  | rdReserved3C (size : Nat)
  deriving DecidableEq, Repr

end Sys2Proof
end

