-- ==== Sys2Proof/Decode.lean ====
section
/-! DEFINITION. The decoder, total on every command word and every bus request and rejecting by name, then the encoder (30_encoding R80 to R90), then the two forms in which a request is given: a byte address of the host's address space (20_memory R50, R57) and a word of the opcode table. -/

namespace Sys2Proof

/-- Why the decoder gives a word or a request no instruction of the opcode table. -/
inductive DecodeError where
  /-- RSVD, bits 31:6, is not 0 (30_encoding R82, R86). -/
  | reservedBitsSet
  /-- OP is 0x4 to 0xF (R81, R86). -/
  | unknownOperation
  /-- CNTM1 is not 0 and OP is not ABSORB (R80, R86). -/
  | countNotAllowed
  /-- A write to an offset other than CMD and DATA_IN (20_memory R54). -/
  | notWritable
  /-- A read at an offset that is not a multiple of 4 (R51). -/
  | misalignedRead
  deriving DecidableEq, Repr

/-! ### The command word -/

/-- OP, bits 3:0 (30_encoding R80). -/
def opField (v : Word) : BitVec 4 := v.extractLsb' 0 4

/-- CNTM1, bits 5:4 (R80). -/
def cntm1Field (v : Word) : BitVec 2 := v.extractLsb' 4 2

/-- RSVD, bits 31:6 (R80). -/
def rsvdField (v : Word) : BitVec 26 := v.extractLsb' 6 26

/-- The legality rule of R82, in its own form. -/
def legalCommand (v : Word) : Bool :=
  decide (rsvdField v = 0 ∧ (opField v).toNat ≤ 3 ∧ (opField v = 2 ∨ cntm1Field v = 0))

/-- The command of an OP field whose CNTM1 must be 0. -/
def plainCommand (v : Word) (c : Command) : Except DecodeError Command :=
  if cntm1Field v = 0 then .ok c else .error .countNotAllowed

/-- The command decoder: the table of R81 with the checks of R82. -/
def decodeCommand (v : Word) : Except DecodeError Command :=
  if rsvdField v = 0 then
    match (opField v).toNat with
    | 0 => plainCommand v .nop
    | 1 => plainCommand v .init
    | 2 => .ok (.absorb (cntm1Field v))
    | 3 => plainCommand v .finish
    | _ => .error .unknownOperation
  else .error .reservedBitsSet

/-- The word of a command (R85). -/
def encodeCommand : Command → Word
  | .nop => 0x00000000
  | .init => 0x00000001
  | .absorb cntm1 => (0 : BitVec 26) ++ cntm1 ++ (2 : BitVec 4)
  | .finish => 0x00000003

/-- The opcode-table row of a command. -/
def Command.toInstr : Command → Instr
  | .nop => .nop
  | .init => .init
  | .absorb cntm1 => .absorb cntm1
  | .finish => .finish

/-! ### The bus request -/

/-- Offset of CMD (10_state R34). -/
def offCmd : Offset := 0x00

/-- Offset of DATA_IN (10_state R34). -/
def offDataIn : Offset := 0x08

/-- A write to CMD: a 32-bit write of a legal word is that command's own row, any other write to CMD is WR_CMD.
DESIGN CHOICE, safe: the table gives both rows to a legal word, and WR_CMD of it has the same meaning (notes/assumptions/11.md). -/
def decodeCmdWrite (size : Nat) (v : Word) : Instr :=
  if size = 4 then
    match decodeCommand v with
    | .ok c => c.toInstr
    | .error _ => .wrCmd size v
  else .wrCmd size v

/-- The writes of the table, by offset (20_memory R54). -/
def decodeWrite (off : Offset) (size : Nat) (v : Word) : Except DecodeError Instr :=
  if off = offCmd then .ok (decodeCmdWrite size v)
  else if off = offDataIn then .ok (.wrDataIn size v)
  else .error .notWritable

/-- The reads of the table, by offset (10_state R34). -/
def decodeRead (off : Offset) (size : Nat) : Except DecodeError Instr :=
  match off.toNat with
  | 0x00 => .ok (.rdCmd size)
  | 0x04 => .ok (.rdStatus size)
  | 0x08 => .ok (.rdDataIn size)
  | 0x0C => .ok (.rdReserved0C size)
  | 0x10 => .ok (.rdDigest0 size)
  | 0x14 => .ok (.rdDigest1 size)
  | 0x18 => .ok (.rdDigest2 size)
  | 0x1C => .ok (.rdDigest3 size)
  | 0x20 => .ok (.rdLenLo size)
  | 0x24 => .ok (.rdLenHi size)
  | 0x28 => .ok (.rdReserved28 size)
  | 0x2C => .ok (.rdId size)
  | 0x30 => .ok (.rdReserved30 size)
  | 0x34 => .ok (.rdReserved34 size)
  | 0x38 => .ok (.rdReserved38 size)
  | 0x3C => .ok (.rdReserved3C size)
  | _ => .error .misalignedRead

/-- The decoder of bus requests: total, and a request of no row is rejected by name. -/
def decode (r : Request) : Except DecodeError Instr :=
  if r.write then decodeWrite r.off r.size r.wdata else decodeRead r.off r.size

/-! ### The encoder -/

/-- `MemWrite(off, size, v)` as a request (00_scope R11). -/
def memWrite (off : Offset) (size : Nat) (v : Word) : Request := { write := true, off, size, wdata := v }

/-- `MemRead(off, size)` as a request (00_scope R11); a read carries no data. -/
def memRead (off : Offset) (size : Nat) : Request := { write := false, off, size, wdata := 0 }

/-- The bus request of an instruction (30_encoding R85, R88; offsets of 10_state R34). -/
def encode : Instr → Request
  | .nop => memWrite offCmd 4 (encodeCommand .nop)
  | .init => memWrite offCmd 4 (encodeCommand .init)
  | .absorb cntm1 => memWrite offCmd 4 (encodeCommand (.absorb cntm1))
  | .finish => memWrite offCmd 4 (encodeCommand .finish)
  | .wrCmd size v => memWrite offCmd size v
  | .wrDataIn size v => memWrite offDataIn size v
  | .rdCmd size => memRead 0x00 size
  | .rdStatus size => memRead 0x04 size
  | .rdDataIn size => memRead 0x08 size
  | .rdDigest0 size => memRead 0x10 size
  | .rdDigest1 size => memRead 0x14 size
  | .rdDigest2 size => memRead 0x18 size
  | .rdDigest3 size => memRead 0x1C size
  | .rdLenLo size => memRead 0x20 size
  | .rdLenHi size => memRead 0x24 size
  | .rdId size => memRead 0x2C size
  | .rdReserved0C size => memRead 0x0C size
  | .rdReserved28 size => memRead 0x28 size
  | .rdReserved30 size => memRead 0x30 size
  | .rdReserved34 size => memRead 0x34 size
  | .rdReserved38 size => memRead 0x38 size
  | .rdReserved3C size => memRead 0x3C size

/-! ### Byte addresses of the host -/

/-- The offset in the window of a byte address of the host's address space; none outside the window, where the core is not addressed (20_memory R50). -/
def offsetOf (addr : Nat) : Option Offset :=
  if Config.base ≤ addr ∧ addr < Config.base + 64 then some (BitVec.ofNat 6 (addr - Config.base)) else none

/-- The byte address of lane j of the register at an offset (20_memory R57, D24). -/
def laneAddress (off : Offset) (j : Nat) : Nat := Config.base + off.toNat + j

/-- The core's request for a host access at a byte address, where the core is addressed at all. -/
def requestAt (write : Bool) (addr size : Nat) (v : Word) : Option Request :=
  (offsetOf addr).map fun off => { write, off, size, wdata := v }

/-! ### Words of the opcode table -/

/-- The request that a word of `spec/opcode_table.json` stands for.
A row of format CMD (mask over 32 bits) is a 32-bit write of that word to CMD.
A row of format BUS_WRITE or BUS_READ has only `off[5:0]`; every further bit is 0, the `write` signal of 20_memory R65 among them, so it is a read, of the one size that acts.
DESIGN CHOICE, safe: the table gives RD_CMD and WR_CMD one word, and RD_DATA_IN and WR_DATA_IN one word (notes/assumptions/10.md). -/
def tableRequest (nbits w : Nat) : Option Request :=
  if nbits ≤ 8 then
    if w < 64 then some (memRead (BitVec.ofNat 6 w) 4) else none
  else if nbits ≤ 32 ∧ w < 2 ^ nbits then some (memWrite offCmd 4 (BitVec.ofNat 32 w))
  else none

/-- The instruction the decoder reads from a word of the opcode table; none where it refuses. -/
def decodeTableWord (nbits w : Nat) : Option Instr :=
  match tableRequest nbits w with
  | some r => (decode r).toOption
  | none => none

end Sys2Proof
end

