-- ==== Sys2Proof/Machine/Flags.lean ====
section
/-! DEFINITION. The status flags and the STATUS register (10_state R33, R35), and the numbers of the error codes (60_exceptions R210). The core has no arithmetic flags. -/

namespace Sys2Proof.Machine

/-- BUSY: ACTIVE = 1 or PEND is non-empty; computed, not stored (10_state R35). -/
def State.busy (s : State) : Bool := s.active || !s.pend.isEmpty

/-- CNT = len(BUF), a 6-bit field of STATUS (R28, R35). -/
def State.cnt (s : State) : BitVec 6 := BitVec.ofNat 6 s.buf.length

/-- A flag as a 32-bit number. -/
def flagWord (b : Bool) : Word := (BitVec.ofBool b).setWidth 32

/-- The value STATUS reads: `zext_32(CNT) << 8 | ERRCODE << 4 | ERR << 2 | DONE << 1 | BUSY` (R35). -/
def State.statusWord (s : State) : Word :=
  (s.cnt.setWidth 32 <<< 8) ||| (s.errcode.setWidth 32 <<< 4) ||| (flagWord s.err <<< 2) ||| (flagWord s.done <<< 1) ||| flagWord s.busy

/-- The number of an error code (60_exceptions R210). -/
def errorNumber : ErrorCode → BitVec 4
  | .none => 0
  | .busy => 1
  | .illegal => 2
  | .length => 3
  | .address => 4

end Sys2Proof.Machine
end

