-- ==== Sys2Proof/Machine/Operands.lean ====
section
/-! DEFINITION. Where an instruction finds its operands: ABSORB's byte count and bytes (30_encoding R83, R84), the four DIGEST registers and the halves of LEN (10_state R37, R38). -/

namespace Sys2Proof.Machine

/-- ABSORB's byte count `n = zext_3(CNTM1) + 1`, 1 to 4 (30_encoding R83). -/
def absorbCount (cntm1 : BitVec 2) : Nat := cntm1.toNat + 1

/-- ABSORB's bytes `d_0, ..., d_(n-1)`, `d_j` lane j of DATA_IN (R84). -/
def absorbBytes (cntm1 : BitVec 2) (dataIn : Word) : List Byte := (List.range (absorbCount cntm1)).map (lane dataIn)

/-- LEN[31:0], what LEN_LO reads (10_state R38). -/
def lenLo (len : DWord) : Word := len.extractLsb' 0 32

/-- LEN[63:32], what LEN_HI reads (R38). -/
def lenHi (len : DWord) : Word := len.extractLsb' 32 32

end Sys2Proof.Machine
end

