-- ==== Sys2Proof/Machine/Padder.lean ====
section
/-! DEFINITION. The padder and the block splitter (41_padder_splitter): the source's whole-message functions `pad` and `split`, and the core's tail padder. -/

namespace Sys2Proof.Machine

/-- How many zero bytes the padder appends after the marker: `(55 - n) mod 64` (41_padder_splitter R122, R128). -/
def padZeros (n : Nat) : Nat := ((55 - (n : Int)) % 64).toNat

/-- `bit_length = (8 * len(m)) mod 2^64` (R120). -/
def bitLength (m : List Byte) : DWord := BitVec.ofNat 64 (8 * m.length)

/-- `pad(m)` (R120 to R123). -/
def pad (m : List Byte) : List Byte := m ++ [0x80] ++ zeros (padZeros m.length) ++ le64bytes (bitLength m)

/-- `pad_tail(BUF, LEN)`, what FINISH queues (R128). -/
def padTail (buf : List Byte) (len : DWord) : List Byte := buf ++ [0x80] ++ zeros (padZeros buf.length) ++ le64bytes len

/-- The first n consecutive 64-byte blocks of a sequence. -/
def blocksOf : Nat → List Byte → List Block
  | 0, _ => []
  | n + 1, p => blockOf (p.take 64) :: blocksOf n (p.drop 64)

/-- `split(p)` (R126), with its precondition checked: none where the length is not a multiple of 64 (R127). -/
def splitBlocks (p : List Byte) : Option (List Block) :=
  if p.length % 64 = 0 then some (blocksOf (p.length / 64) p) else none

end Sys2Proof.Machine
end

