-- ==== Sys2Proof/Machine/Ops.lean ====
section
/-! DEFINITION. The shared operations of every bus access: raising an error, the order of the checks of a write, the acceptance of each command, a DATA_IN write and the reads; then reset. -/

namespace Sys2Proof.Machine

/-- What a step or a meaning answers. -/
abbrev Result := Host.Outcome State Fault Refusal

/-! ### Errors -/

/-- `raise Error(code)`: the whole of what an error does (60_exceptions R212, R218). This hardware's exception entry: nothing else is saved, no mode changes, control goes nowhere (R221). -/
def raiseError (e : ErrorCode) (s : State) : State := { s with err := true, errcode := errorNumber e }

/-- Not an access that R217 case 3 lets through: a size other than 4, a misaligned offset, or an offset other than CMD and DATA_IN (60_exceptions R211). -/
def badAddress (off : Offset) (size : Nat) : Bool :=
  size != 4 || off.toNat % 4 != 0 || (off != offCmd && off != offDataIn)

/-- The one write that is performed while ERR = 1: INIT, when BUSY = 0 (R216). -/
def isRecovery (off : Offset) (size : Nat) (v : Word) (s : State) : Bool :=
  off == offCmd && size == 4 && v == encodeCommand .init && !s.busy

/-- The checks of one write, in order: the first case that applies decides (R217).
While `rst` is asserted a transaction has no effect (70_reset R240). -/
def checkWrite (off : Offset) (size : Nat) (v : Word) (s : State) : Verdict :=
  if s.rst then .ignore
  else if s.err then (if isRecovery off size v s then .perform else .ignore)
  else if s.busy then .reject .busy
  else if badAddress off size then .reject .address
  else if off = offCmd ∧ legalCommand v = false then .reject .illegal
  else .perform

/-- `MemWrite(off, size, v)`: the checks, and `effect` where they let the write through (20_memory R54, 43_commands R170). -/
def busWrite (off : Offset) (size : Nat) (v : Word) (effect : State → Result) (s : State) : Result :=
  match checkWrite off size v s with
  | .ignore => .next s
  | .reject e => .next (raiseError e s)
  | .perform => effect s

/-! ### Acceptance of the commands -/

/-- INIT's effect (43_commands R172). It is also the recovery from an error (60_exceptions R222): it clears ERR and ERRCODE. -/
def acceptInit (s : State) : State :=
  { s with h := iv, len := 0, buf := [], fin := false, done := false, err := false, errcode := 0 }

/-- Absorbing one byte: the streaming splitter (41_padder_splitter R129). -/
def absorbByte (s : State) (d : Byte) : State :=
  if (s.buf ++ [d]).length = 64 then
    { s with pend := s.pend ++ [blockOf (s.buf ++ [d])], buf := [], len := s.len + 8 }
  else { s with buf := s.buf ++ [d], len := s.len + 8 }

/-- ABSORB's effect (43_commands R174): DONE is cleared, and the n bytes are absorbed one at a time, lane 0 first. -/
def acceptAbsorb (cntm1 : BitVec 2) (s : State) : State :=
  (absorbBytes cntm1 s.dataIn).foldl absorbByte { s with done := false }

/-- FINISH's effect on the state, for the blocks of the padded tail (R175). -/
def queueTail (bs : List Block) (s : State) : State :=
  { s with pend := bs, buf := [], len := 0, fin := true, done := false }

/-- FINISH's effect (R175). The splitter's precondition always holds (41_padder_splitter R127), so the fault is never reached. -/
def acceptFinish (s : State) : Result :=
  match splitBlocks (padTail s.buf s.len) with
  | some bs => .next (queueTail bs s)
  | none => .fault .invalidLength

/-- The effect of an accepted command (R170). -/
def acceptCommand (c : Command) (s : State) : Result :=
  match c with
  | .nop => .next s
  | .init => .next (acceptInit s)
  | .absorb cntm1 => .next (acceptAbsorb cntm1 s)
  | .finish => acceptFinish s

/-- The effect of a write to CMD that passed the checks: the word is decoded and its command accepted (R170).
An illegal word does not pass them (60_exceptions R217 case 4); for it there is nothing left to do. -/
def acceptWord (v : Word) (s : State) : Result :=
  match decodeCommand v with
  | .ok c => acceptCommand c s
  | .error _ => .next s

/-- A command written to CMD as a 32-bit word: `MemWrite(0x00, 4, word)` (30_encoding R88). -/
def commandWrite (c : Command) (s : State) : Result := busWrite offCmd 4 (encodeCommand c) (acceptCommand c) s

/-- DATA_IN's write (43_commands R176). -/
def storeDataIn (v : Word) (s : State) : State := { s with dataIn := v }

/-! ### Reads -/

/-- A read returns `v` to the host; no core state changes (20_memory R52). -/
def returnValue (v : Word) (s : State) : State := { s with reads := v :: s.reads }

/-- The reads that return 0 whatever the register: while `rst` is asserted (70_reset R240), and of a size other than 4 (20_memory R51). -/
def readsZero (size : Nat) (s : State) : Bool := s.rst || size != 4

/-- `MemRead(off, size)` of a register that reads `v` (43_commands R177). -/
def busRead (size : Nat) (v : Word) (s : State) : Result :=
  .next (returnValue (if readsZero size s then 0 else v) s)

/-- The value DIGESTk returns while BUSY = 1: a fresh free value (10_state R37, U1; notes/assumptions/3.md). -/
def freeDigestRead (s : State) : State :=
  { returnValue (Config.freeDigest s.freeCount) s with freeCount := s.freeCount + 1 }

/-- A read of a digest register that holds `v` (R37). -/
def digestRead (size : Nat) (v : Word) (s : State) : Result :=
  if readsZero size s then .next (returnValue 0 s)
  else if s.busy then .next (freeDigestRead s)
  else .next (returnValue v s)

/-- A request of no row of the opcode table (30_encoding R90): a write to any other offset goes through the same checks (60_exceptions R211, R217), a misaligned read returns 0 (20_memory R51). -/
def rejectedAccess (r : Request) (s : State) : Result :=
  if r.write then busWrite r.off r.size r.wdata (fun t => .next t) s
  else .next (returnValue 0 s)

/-! ### Reset -/

/-- The core's elements take the values of 10_state R43 and the reset input the given level; the host's side stays (70_reset R240).
W and X, which R240 leaves unspecified, take the values of `State.reset`: DESIGN CHOICE, unsafe (notes/assumptions/1.md). -/
def applyReset (level : Bool) (s : State) : State :=
  { State.reset with rst := level, program := s.program, turns := s.turns, reads := s.reads, freeCount := s.freeCount }

end Sys2Proof.Machine
end

