-- ==== Sys2Proof/Machine/BusReads.lean ====
section
/-! DEFINITION. The meanings of the bus reads (43_commands R177; the values of 10_state R35 to R40). -/

namespace Sys2Proof.Machine

/-- RD_CMD: CMD holds no value and reads 0 (10_state R36). -/
def execRdCmd (size : Nat) (s : State) : Result := busRead size 0 s

/-- RD_STATUS (R35). -/
def execRdStatus (size : Nat) (s : State) : Result := busRead size s.statusWord s

/-- RD_DATA_IN (R39). -/
def execRdDataIn (size : Nat) (s : State) : Result := busRead size s.dataIn s

/-- RD_DIGEST0, register A (R37). -/
def execRdDigest0 (size : Nat) (s : State) : Result := digestRead size s.h.a s

/-- RD_DIGEST1, register B (R37). -/
def execRdDigest1 (size : Nat) (s : State) : Result := digestRead size s.h.b s

/-- RD_DIGEST2, register C (R37). -/
def execRdDigest2 (size : Nat) (s : State) : Result := digestRead size s.h.c s

/-- RD_DIGEST3, register D (R37). -/
def execRdDigest3 (size : Nat) (s : State) : Result := digestRead size s.h.d s

/-- RD_LEN_LO (R38). -/
def execRdLenLo (size : Nat) (s : State) : Result := busRead size (lenLo s.len) s

/-- RD_LEN_HI (R38). -/
def execRdLenHi (size : Nat) (s : State) : Result := busRead size (lenHi s.len) s

/-- RD_ID (R40). -/
def execRdId (size : Nat) (s : State) : Result := busRead size idValue s

/-- RD_RESERVED_0C (20_memory R53). -/
def execRdReserved0C (size : Nat) (s : State) : Result := busRead size 0 s

/-- RD_RESERVED_28 (R53). -/
def execRdReserved28 (size : Nat) (s : State) : Result := busRead size 0 s

/-- RD_RESERVED_30 (R53). -/
def execRdReserved30 (size : Nat) (s : State) : Result := busRead size 0 s

/-- RD_RESERVED_34 (R53). -/
def execRdReserved34 (size : Nat) (s : State) : Result := busRead size 0 s

/-- RD_RESERVED_38 (R53). -/
def execRdReserved38 (size : Nat) (s : State) : Result := busRead size 0 s

/-- RD_RESERVED_3C (R53). -/
def execRdReserved3C (size : Nat) (s : State) : Result := busRead size 0 s

end Sys2Proof.Machine
end

