-- ==== Sys2Proof/Machine/BusWrites.lean ====
section
/-! DEFINITION. The meanings of the bus writes WR_CMD and WR_DATA_IN (20_memory R54, 43_commands R170, R176). -/

namespace Sys2Proof.Machine

/-- WR_CMD: a write of any word and any size to CMD (43_commands R170). -/
def execWrCmd (size : Nat) (v : Word) (s : State) : Result := busWrite offCmd size v (acceptWord v) s

/-- WR_DATA_IN (R176). -/
def execWrDataIn (size : Nat) (v : Word) (s : State) : Result := busWrite offDataIn size v (fun t => .next (storeDataIn v t)) s

end Sys2Proof.Machine
end

