-- ==== Sys2Proof/Machine/Commands.lean ====
section
/-! DEFINITION. The meanings of the commands NOP, INIT, ABSORB and FINISH (43_commands section 2): each is a 32-bit write of its word to CMD. -/

namespace Sys2Proof.Machine

/-- NOP (43_commands R171). -/
def execNop (s : State) : Result := commandWrite .nop s

/-- INIT (R172). -/
def execInit (s : State) : Result := commandWrite .init s

/-- ABSORB (R174). -/
def execAbsorb (cntm1 : BitVec 2) (s : State) : Result := commandWrite (.absorb cntm1) s

/-- FINISH (R175). -/
def execFinish (s : State) : Result := commandWrite .finish s

end Sys2Proof.Machine
end

