-- ==== Sys2Proof/Machine/Dispatch.lean ====
section
/-! DEFINITION. One arm for each instruction. -/

namespace Sys2Proof.Machine

def exec (i : Instr) (s : State) : Host.Outcome State Fault Refusal :=
  match i with
  | .nop => Sys2Proof.Machine.execNop s
  | .init => Sys2Proof.Machine.execInit s
  | .absorb cntm1 => Sys2Proof.Machine.execAbsorb cntm1 s
  | .finish => Sys2Proof.Machine.execFinish s
  | .wrCmd size v => Sys2Proof.Machine.execWrCmd size v s
  | .wrDataIn size v => Sys2Proof.Machine.execWrDataIn size v s
  | .rdCmd size => Sys2Proof.Machine.execRdCmd size s
  | .rdStatus size => Sys2Proof.Machine.execRdStatus size s
  | .rdDataIn size => Sys2Proof.Machine.execRdDataIn size s
  | .rdDigest0 size => Sys2Proof.Machine.execRdDigest0 size s
  | .rdDigest1 size => Sys2Proof.Machine.execRdDigest1 size s
  | .rdDigest2 size => Sys2Proof.Machine.execRdDigest2 size s
  | .rdDigest3 size => Sys2Proof.Machine.execRdDigest3 size s
  | .rdLenLo size => Sys2Proof.Machine.execRdLenLo size s
  | .rdLenHi size => Sys2Proof.Machine.execRdLenHi size s
  | .rdId size => Sys2Proof.Machine.execRdId size s
  | .rdReserved0C size => Sys2Proof.Machine.execRdReserved0C size s
  | .rdReserved28 size => Sys2Proof.Machine.execRdReserved28 size s
  | .rdReserved30 size => Sys2Proof.Machine.execRdReserved30 size s
  | .rdReserved34 size => Sys2Proof.Machine.execRdReserved34 size s
  | .rdReserved38 size => Sys2Proof.Machine.execRdReserved38 size s
  | .rdReserved3C size => Sys2Proof.Machine.execRdReserved3C size s

end Sys2Proof.Machine
end

