-- ==== Sys2Proof/Machine/Agents.lean ====
section
/-! DEFINITION. The agents' moves (00_scope R12): the host's next transaction, the core's step, an edge of the reset input; who moves when the list of turns has run out; and how a program of bus requests is placed with the host. -/

namespace Sys2Proof.Machine

/-- One bus transaction: the decoded row's meaning, or what the spec gives a request of no row. -/
def runRequest (r : Request) (s : State) : Result :=
  match decode r with
  | .ok i => exec i s
  | .error _ => rejectedAccess r s

/-- Whether the value the last read returned has bit 0 set: what `WAIT` tests (30_encoding R89). -/
def lastReadOdd (s : State) : Bool := (s.reads.headD 0).getLsbD 0

/-- `WAIT`: one read of STATUS; the loop goes on while bit 0 is 1 (R89). `rest` is the program after the loop. -/
def waitMove (rest : List HostOp) (s : State) : Result :=
  match exec (.rdStatus 4) { s with program := rest } with
  | .next t => .next (if lastReadOdd t then { t with program := .wait :: rest } else t)
  | .fault f => .fault f
  | .refused r => .refused r

/-- The host's move: its next operation, or nothing when its program has ended (70_reset R250). -/
def hostMove (s : State) : Result :=
  match s.program with
  | [] => .next s
  | .access r :: rest => runRequest r { s with program := rest }
  | .wait :: rest => waitMove rest s

/-- Who moves next: the head of `turns`; when it has run out, the core while BUSY = 1, else the host.
DESIGN CHOICE: every interleaving of R58 and U3 is some list of turns, and the default keeps every run weakly fair (70_reset R249, notes/assumptions/4.md). -/
def nextTurn (s : State) : Turn :=
  match s.turns with
  | t :: _ => t
  | [] => if s.busy then .core else .host

/-- The move of one agent. -/
def move (t : Turn) (s : State) : Result :=
  match t with
  | .host => hostMove s
  | .core => .next (coreStep s)
  | .assertRst => .next (applyReset true s)
  | .releaseRst => .next (applyReset false s)

/-- The next agent moves, and its turn is used up. -/
def moveNext (s : State) : Result := move (nextTurn s) { s with turns := s.turns.tail }

/-- A bus request placed so that the very next step performs it. -/
def placeRequest (r : Request) (s : State) : State :=
  { s with program := .access r :: s.program, turns := .host :: s.turns }

/-- The request of an opcode-table word placed so that the very next step performs it; a word of no request places nothing. -/
def placeTableWord (nbits w : Nat) (s : State) : State :=
  match tableRequest nbits w with
  | some r => placeRequest r s
  | none => s

/-! ### Host programs (30_encoding R88, R89) -/

/-- `NOP`, `INIT`, `ABSORB n` and `FINISH` (R88). -/
def opCommand (c : Command) : HostOp := .access (memWrite offCmd 4 (encodeCommand c))

/-- `WR DATA_IN, value` (R88). -/
def opDataIn (v : Word) : HostOp := .access (memWrite offDataIn 4 v)

/-- `RD reg` at the register's offset (R88). -/
def opRead (off : Offset) : HostOp := .access (memRead off 4)

/-- `ABSORBW w, n` with n - 1 = CNTM1 (R89). -/
def opsAbsorbWord (v : Word) (cntm1 : BitVec 2) : List HostOp := [opDataIn v, opCommand (.absorb cntm1), .wait]

/-- `FEED m`: four bytes at a time, a last shorter piece filled up with 0x00 (R89). -/
def opsFeed : List Byte → List HostOp
  | [] => []
  | [b0] => opsAbsorbWord (le32 b0 0 0 0) 0
  | [b0, b1] => opsAbsorbWord (le32 b0 b1 0 0) 1
  | [b0, b1, b2] => opsAbsorbWord (le32 b0 b1 b2 0) 2
  | b0 :: b1 :: b2 :: b3 :: m => opsAbsorbWord (le32 b0 b1 b2 b3) 3 ++ opsFeed m

/-- `UPDATE m` (R89). -/
def opsUpdate (m : List Byte) : List HostOp := opsFeed m ++ [opCommand .finish, .wait]

/-- `DIGEST` (R89). -/
def opsDigest : List HostOp := [opRead 0x10, opRead 0x14, opRead 0x18, opRead 0x1C]

/-- `HASH m` (R89). -/
def opsHash (m : List Byte) : List HostOp := opCommand .init :: opsUpdate m ++ opsDigest

end Sys2Proof.Machine
end

