-- ==== Sys2Proof/Machine/Step.lean ====
section
/-! DEFINITION. One step of the machine: one host transaction, one core step or one edge of the reset input (00_scope R12). -/

namespace Sys2Proof.Machine

/-- The next agent's move. -/
def step (s : State) : Host.Outcome State Fault Refusal := moveNext s

/-- The state with an opcode-table word placed where the next step performs it: at the head of the host's program, with the host to move.
The machine fetches nothing (10_state R32): a program is what the host does, and it comes from outside (notes/assumptions/5.md). -/
def State.withFetchWord (s : State) (nbits w : Nat) : State := placeTableWord nbits w s

end Sys2Proof.Machine
end

