-- ==== Sys2Proof/WellFormed.lean ====
section
/-! DEFINITION. The well-formed instructions: those the decoder can answer, one for each bus request of a row. -/

namespace Sys2Proof

/-- A WR_CMD of size 4 is written as such only for an illegal word: a legal word is its command's own row (30_encoding R85, R90).
Every other term is well-formed: each operand's type admits exactly what its encoding admits. -/
def Instr.wellFormed : Instr → Bool
  | .nop => true
  | .init => true
  | .absorb _ => true
  | .finish => true
  | .wrCmd size v => !(size == 4 && legalCommand v)
  | .wrDataIn _ _ => true
  | .rdCmd _ => true
  | .rdStatus _ => true
  | .rdDataIn _ => true
  | .rdDigest0 _ => true
  | .rdDigest1 _ => true
  | .rdDigest2 _ => true
  | .rdDigest3 _ => true
  | .rdLenLo _ => true
  | .rdLenHi _ => true
  | .rdId _ => true
  | .rdReserved0C _ => true
  | .rdReserved28 _ => true
  | .rdReserved30 _ => true
  | .rdReserved34 _ => true
  | .rdReserved38 _ => true
  | .rdReserved3C _ => true

end Sys2Proof
end

