-- ==== Sys2Proof/Safety.lean ====
section
/-! DEFINITION. What claims are stated in: a safe move, the invariant of the state, a ready core, a message being absorbed, and the history of finished blocks that 10_state R23 speaks of. -/

namespace Sys2Proof.Machine

/-- The next step neither faults nor is refused: the hardware has no trap (60_exceptions R221). -/
def State.Safe (s : State) : Prop := ∃ t, step s = .next t

/-- Every core element that 70_reset R240 gives a value has it (W and X, unspecified there, are left out). -/
structure State.CoreReset (s : State) : Prop where
  h : s.h = iv
  rnd : s.rnd = 0
  active : s.active = false
  pend : s.pend = []
  buf : s.buf = []
  len : s.len = 0
  fin : s.fin = false
  dataIn : s.dataIn = 0
  done : s.done = false
  err : s.err = false
  errcode : s.errcode = 0

/-- The invariant of the state. Each field is a rule of the spec about every reachable point. -/
structure State.Inv (s : State) : Prop where
  /-- CNT is at most 63 between transactions (10_state R28). -/
  bufLength : s.buf.length ≤ 63
  /-- PEND holds at most 2 blocks (R27). -/
  pendLength : s.pend.length ≤ 2
  /-- Only FINISH queues two blocks (R27). -/
  twoBlocks : s.pend.length = 2 → s.fin = true
  /-- The head block stays in PEND until its compression finishes (R27). -/
  activePending : s.active = true → s.pend ≠ []
  /-- X holds the words of the block being compressed (R25). -/
  activeLatch : s.active = true → ∀ b, s.pend.head? = some b → s.x = wordsOf b
  /-- W is what the rounds before RND make of H (R24, 42_compressor R149). -/
  activeRounds : s.active = true → s.w = firstRounds s.x s.h s.rnd.val
  /-- RND is 0 while no block is being compressed (42_compressor R154). -/
  idleRound : s.active = false → s.rnd = 0
  /-- FIN is 1 only while a block of that FINISH is unfinished (R30). -/
  finPending : s.fin = true → s.pend ≠ []
  /-- No byte of a next message is absorbed while FIN = 1 (43_commands R175, 60_exceptions R213). -/
  finMessage : s.fin = true → s.buf = [] ∧ s.len = 0
  /-- DONE = 1 only when the finished message's digest is in H and nothing was accepted since (R41). -/
  doneIdle : s.done = true → s.pend = [] ∧ s.fin = false ∧ s.buf = [] ∧ s.len = 0
  /-- LEN counts 8 for each byte, so modulo a block it is 8 CNT (R29, 41_padder_splitter R130). -/
  lenCnt : s.len.toNat % 512 = 8 * s.buf.length
  /-- ERRCODE is 0 when ERR = 0 (R35). -/
  noError : s.err = false → s.errcode = 0
  /-- The recorded codes are BUSY, ILLEGAL and ADDRESS; LENGTH and 5 to 15 are never recorded (60_exceptions R210). -/
  someError : s.err = true → s.errcode = 1 ∨ s.errcode = 2 ∨ s.errcode = 4
  /-- While `rst` is asserted every element has its reset value (70_reset R240). -/
  inReset : s.rst = true → s.CoreReset

/-- Any command may be written and is accepted: not in reset, BUSY = 0, ERR = 0 (60_exceptions R217). -/
def State.ready (s : State) : Bool := !s.rst && !s.busy && !s.err

/-- Between messages: BUF empty and LEN 0, as after reset, INIT and FINISH (43_commands R178). -/
def State.betweenMessages (s : State) : Bool := s.buf.isEmpty && s.len == 0

/-- Two states agree on every core element of 10_state R20 but ERR and ERRCODE: what an error leaves alone (60_exceptions R218). -/
structure State.SameButError (s t : State) : Prop where
  h : t.h = s.h
  w : t.w = s.w
  x : t.x = s.x
  rnd : t.rnd = s.rnd
  active : t.active = s.active
  pend : t.pend = s.pend
  buf : t.buf = s.buf
  len : t.len = s.len
  fin : t.fin = s.fin
  dataIn : t.dataIn = s.dataIn
  done : t.done = s.done

/-- Two states agree on every core element of 10_state R20. -/
structure State.SameCore (s t : State) : Prop extends State.SameButError s t where
  err : t.err = s.err
  errcode : t.errcode = s.errcode

/-- Two states agree on the model's fields that no transaction touches: the reset pin, the host's remaining program and the turns. -/
structure State.SameHost (s t : State) : Prop where
  rst : t.rst = s.rst
  program : t.program = s.program
  turns : t.turns = s.turns

/-- The bytes of a message absorbed one after the other (41_padder_splitter R129). -/
def absorbAll (m : List Byte) (s : State) : State := m.foldl absorbByte s

/-! ### Kinds of instruction -/

/-- A row of format BUS_READ. -/
def isRead : Instr → Bool
  | .nop => false
  | .init => false
  | .absorb _ => false
  | .finish => false
  | .wrCmd _ _ => false
  | .wrDataIn _ _ => false
  | .rdCmd _ => true
  | .rdStatus _ => true
  | .rdDataIn _ => true
  | .rdDigest0 _ => true
  | .rdDigest1 _ => true
  | .rdDigest2 _ => true
  | .rdDigest3 _ => true
  | .rdLenLo _ => true
  | .rdLenHi _ => true
  | .rdId _ => true
  | .rdReserved0C _ => true
  | .rdReserved28 _ => true
  | .rdReserved30 _ => true
  | .rdReserved34 _ => true
  | .rdReserved38 _ => true
  | .rdReserved3C _ => true

/-- A read of one of the four digest registers. -/
def isDigestRead (i : Instr) : Bool :=
  (encode i).write == false && decide (0x10 ≤ (encode i).off.toNat) && decide ((encode i).off.toNat ≤ 0x1C)

/-- A command other than NOP, as the write of its word (30_encoding R85): the writes that can change the message or the digest. -/
def writesCommand (i : Instr) : Prop := ∃ c : Command, c ≠ .nop ∧ encode i = memWrite offCmd 4 (encodeCommand c)

/-! ### The history of finished blocks -/

/-- The next move is an edge of the reset input. -/
def State.movesReset (s : State) : Bool := nextTurn s == .assertRst || nextTurn s == .releaseRst

/-- The next move is a bus transaction, and this is it. -/
def State.nextRequest (s : State) : Option Request :=
  match nextTurn s, s.program with
  | .host, .access r :: _ => some r
  | _, _ => none

/-- A request is an INIT that is performed: the INIT word, 32 bits, to CMD, with BUSY = 0 and out of reset (43_commands R172, 60_exceptions R216). -/
def performsInit (r : Request) (s : State) : Bool := r == memWrite offCmd 4 (encodeCommand .init) && !s.busy && !s.rst

/-- The next move is the acceptance of an INIT. -/
def State.acceptsInit (s : State) : Bool :=
  match s.nextRequest with
  | some r => performsInit r s
  | none => false

/-- The next move is the ROUND step with RND = 63, which ends a block (42_compressor R154). -/
def State.endsBlock (s : State) : Bool := nextTurn s == .core && !s.rst && s.active && s.rnd == 63

/-- The blocks whose compression has finished since the last INIT or reset, after the next step (10_state R23). -/
def finishedAfter (finished : List Block) (s : State) : List Block :=
  if s.movesReset || s.acceptsInit then []
  else if s.endsBlock then finished ++ s.pend.take 1
  else finished

end Sys2Proof.Machine
end

