-- ==== Sys2Proof/Certificates/Slice0/Obligations.lean ====
section
/-! DEFINITION. The statements for the provers, one `def Obligations.<Name> : Prop` each. A statement whose rule the spec itself marks `[derived: …]` says so; none rests on a value of a free constant. -/

open Sys2Proof Sys2Proof.Machine

/-! ### Encoding -/

/-- Decode and encode agree, both ways: every well-formed instruction, at every value of every operand, is what its request decodes to; and a request that decodes is the encoding of its instruction (a read's unused data lines apart). 30_encoding R80 to R85, R88, R90; offsets of 10_state R34. -/
def Obligations.DecodeOfEncodeIsTheInstruction : Prop :=
  (∀ i : Instr, i.wellFormed = true → decode (encode i) = .ok i) ∧
  ∀ (r : Request) (i : Instr), decode r = .ok i →
    i.wellFormed = true ∧ encode i = { r with wdata := if r.write then r.wdata else 0 }

/-- 30_encoding R82 and 60_exceptions R214: which command words are legal, that they are exactly the seven of R85, that the decoder accepts these and no others, and that any other word written to CMD with ERR = 0 and BUSY = 0 is an ILLEGAL error and performs nothing. -/
def Obligations.LegalCommandWordsAreTheSeven : Prop :=
  ∀ v : Word,
    (legalCommand v = true ↔
      v.extractLsb' 6 26 = 0 ∧ (v.extractLsb' 0 4).toNat ≤ 3 ∧ (v.extractLsb' 0 4 = 2 ∨ v.extractLsb' 4 2 = 0)) ∧
    (legalCommand v = true ↔ v ∈ ([0x00, 0x01, 0x02, 0x12, 0x22, 0x32, 0x03] : List Word)) ∧
    (legalCommand v = true ↔ ∃ c, decodeCommand v = .ok c) ∧
    (∀ c, decodeCommand v = .ok c → encodeCommand c = v) ∧
    (legalCommand v = false → ∀ s : State, s.rst = false → s.err = false → s.busy = false →
      exec (.wrCmd 4 v) s = .next { s with err := true, errcode := 2 } ∧
      runRequest (memWrite 0x00 4 v) s = .next { s with err := true, errcode := 2 })

/-- A sanity statement: words written out from 30_encoding R85 and requests at the offsets of 10_state R34 decode to their rows. -/
def Obligations.WordsOfTheTableDecode : Prop :=
  decodeTableWord 32 0b00000000000000000000000000000000 = some .nop ∧
  decodeTableWord 32 0b00000000000000000000000000000001 = some .init ∧
  decodeTableWord 32 0b00000000000000000000000000100010 = some (.absorb 2) ∧
  decodeTableWord 32 0b00000000000000000000000000000011 = some .finish ∧
  decodeTableWord 8 0b00000100 = some (.rdStatus 4) ∧
  decodeTableWord 8 0b00011100 = some (.rdDigest3 4) ∧
  decode (memWrite 0b001000 4 0x64636261) = .ok (.wrDataIn 4 0x64636261) ∧
  decode (memWrite 0b000000 2 0x4) = .ok (.wrCmd 2 0x4) ∧
  decode (memWrite 0b010000 4 5) = .error .notWritable

/-- 20_memory R50: the window is the 64 bytes from BASE; an address in it reaches the register at its offset, and any other address does not reach the core. -/
def Obligations.WindowIsSixtyFourBytesAtBase : Prop :=
  (∀ (w : Bool) (off : Offset) (n : Nat) (v : Word),
    requestAt w (laneAddress off 0) n v = some { write := w, off := off, size := n, wdata := v }) ∧
  ∀ (w : Bool) (addr n : Nat) (v : Word), (addr < Config.base ∨ Config.base + 64 ≤ addr) → requestAt w addr n v = none

/-! ### A step runs the decoded instruction -/

/-- When the host moves and its next transaction decodes to an instruction, the step is that instruction's meaning, with the transaction and the turn used up. -/
def Obligations.StepRunsTheDecodedInstruction : Prop :=
  ∀ (s : State) (r : Request) (rest : List HostOp) (i : Instr),
    nextTurn s = .host → s.program = .access r :: rest → decode r = .ok i →
    step s = exec i { s with turns := s.turns.tail, program := rest }

/-- A word of the opcode table placed in a state is what the very next step runs, on that same state. -/
def Obligations.PlacedTableWordRunsNext : Prop :=
  ∀ (s : State) (nbits w : Nat) (i : Instr), decodeTableWord nbits w = some i → step (s.withFetchWord nbits w) = exec i s

/-- A transaction of no row, in a step: a misaligned read returns 0 and changes nothing else (20_memory R51), and a write to an offset other than CMD and DATA_IN is an ADDRESS error when ERR = 0 and BUSY = 0 (60_exceptions R211). -/
def Obligations.StepOfATransactionOfNoRow : Prop :=
  ∀ (s : State) (r : Request) (rest : List HostOp), nextTurn s = .host → s.program = .access r :: rest →
    (r.write = false → r.off.toNat % 4 ≠ 0 →
      step s = .next { s with turns := s.turns.tail, program := rest, reads := 0 :: s.reads }) ∧
    (r.write = true → r.off ≠ 0x00 → r.off ≠ 0x08 → s.rst = false → s.err = false → s.busy = false →
      step s = .next { s with turns := s.turns.tail, program := rest, err := true, errcode := 4 })

/-- 30_encoding R89, `WAIT`: it reads STATUS and goes on waiting exactly while BUSY = 1. -/
def Obligations.WaitReadsStatusAndLoopsWhileBusy : Prop :=
  ∀ (s : State) (rest : List HostOp), nextTurn s = .host → s.program = .wait :: rest → s.rst = false →
    step s = .next { s with
      turns := s.turns.tail
      program := if s.busy then .wait :: rest else rest
      reads := s.statusWord :: s.reads }

/-- Every move is a next state: the core has no trap (60_exceptions R221), and the splitter's precondition never fails (41_padder_splitter R127, which the spec marks derived). -/
def Obligations.NoStepFaultsOrIsRefused : Prop := ∀ s : State, ∃ t, step s = .next t

/-! ### The checks of a write -/

/-- 60_exceptions R217: the order of checks of one write, any offset, any size, any value. -/
def Obligations.WriteChecksApplyInOrder : Prop :=
  ∀ (off : Offset) (n : Nat) (v : Word) (s : State), s.rst = false →
    runRequest (memWrite off n v) s =
      if s.err = true then
        if off = 0x00 ∧ n = 4 ∧ v = 0x00000001 ∧ s.busy = false then .next (acceptInit s) else .next s
      else if s.busy = true then .next { s with err := true, errcode := 1 }
      else if n ≠ 4 ∨ off.toNat % 4 ≠ 0 ∨ (off ≠ 0x00 ∧ off ≠ 0x08) then .next { s with err := true, errcode := 4 }
      else if off = 0x00 ∧ legalCommand v = false then .next { s with err := true, errcode := 2 }
      else if off = 0x00 then acceptWord v s
      else .next { s with dataIn := v }

/-- 60_exceptions R213: any write while BUSY = 1, with ERR = 0, is a BUSY error, and nothing else happens: no command is accepted and DATA_IN is not changed. -/
def Obligations.BusyRefusesEveryWrite : Prop :=
  ∀ (r : Request) (s : State), r.write = true → s.rst = false → s.err = false → s.busy = true →
    runRequest r s = .next { s with err := true, errcode := 1 }

/-- 60_exceptions R211: with ERR = 0 and BUSY = 0 a write of another size, at a misaligned offset or to an offset other than CMD and DATA_IN is an ADDRESS error; a read never raises an error. -/
def Obligations.AddressErrorsComeFromWritesOnly : Prop :=
  ∀ (r : Request) (s : State),
    (r.write = true → s.rst = false → s.err = false → s.busy = false →
      (r.size ≠ 4 ∨ r.off.toNat % 4 ≠ 0 ∨ (r.off ≠ 0x00 ∧ r.off ≠ 0x08)) →
      runRequest r s = .next { s with err := true, errcode := 4 }) ∧
    (r.write = false → ∃ t, runRequest r s = .next t ∧ t.err = s.err ∧ t.errcode = s.errcode)

/-- 60_exceptions R216: while ERR = 1 every write is ignored, but INIT with BUSY = 0 is performed and clears the error; reads and the core's steps go on as usual; reset clears it. -/
def Obligations.ErrorIsStickyUntilInitOrReset : Prop :=
  ∀ s : State, s.rst = false → s.err = true →
    (∀ r : Request, r.write = true → r ≠ memWrite 0x00 4 0x00000001 ∨ s.busy = true → runRequest r s = .next s) ∧
    (s.busy = false → runRequest (memWrite 0x00 4 0x00000001) s =
      .next { s with h := iv, len := 0, buf := [], fin := false, done := false, err := false, errcode := 0 }) ∧
    (∀ (i : Instr) (t : State), isRead i = true → i ≠ .rdStatus 4 → exec i s = .next t →
      exec i { s with err := false, errcode := 0 } = .next { t with err := false, errcode := 0 }) ∧
    exec (.rdStatus 4) s = .next { s with reads := s.statusWord :: s.reads } ∧
    coreStep { s with err := false, errcode := 0 } = { coreStep s with err := false, errcode := 0 } ∧
    ∀ level : Bool, (applyReset level s).err = false ∧ (applyReset level s).errcode = 0

/-- 60_exceptions R218: a write that the checks do not let through changes nothing but ERR and ERRCODE; an ignored one changes nothing at all, an erroneous one records its code (R212). -/
def Obligations.RejectedWriteChangesOnlyTheErrorRecord : Prop :=
  ∀ (r : Request) (s t : State), r.write = true → checkWrite r.off r.size r.wdata s ≠ .perform → runRequest r s = .next t →
    s.SameButError t ∧ s.SameHost t ∧ t.reads = s.reads ∧ t.freeCount = s.freeCount ∧
    (checkWrite r.off r.size r.wdata s = .ignore → t = s) ∧
    ∀ e, checkWrite r.off r.size r.wdata s = .reject e → t.err = true ∧ t.errcode = errorNumber e

/-- 60_exceptions R212: ERRCODE keeps the first error recorded since ERR was last cleared, whatever the next step is, and the code recorded is BUSY, ILLEGAL or ADDRESS, when an error appears. -/
def Obligations.FirstErrorIsKept : Prop :=
  ∀ s t : State, step s = .next t →
    (s.err = true → t.err = true → t.errcode = s.errcode) ∧
    (s.err = false → t.err = true → t.errcode = 1 ∨ t.errcode = 2 ∨ t.errcode = 4)

/-! ### The commands and the DATA_IN write -/

/-- 43_commands R171: NOP's word; it completes with no effect; it is a BUSY error while BUSY = 1, and it is ignored while ERR = 1. -/
def Obligations.NopHasNoEffect : Prop :=
  encode .nop = memWrite 0x00 4 0x00000000 ∧
  ∀ s : State, s.rst = false →
    (s.err = false → s.busy = false → exec .nop s = .next s) ∧
    (s.err = false → s.busy = true → exec .nop s = .next { s with err := true, errcode := 1 }) ∧
    (s.err = true → exec .nop s = .next s)

/-- 43_commands R172: INIT's word; its effect whenever BUSY = 0, whether or not an error is recorded; its refusal while BUSY = 1; and that it keeps DATA_IN, PEND and ACTIVE. -/
def Obligations.InitStartsAFreshMessage : Prop :=
  encode .init = memWrite 0x00 4 0x00000001 ∧
  ∀ s : State, s.rst = false →
    (s.busy = false → exec .init s = .next { s with
      h := { a := 0x67452301, b := 0xEFCDAB89, c := 0x98BADCFE, d := 0x10325476 }
      len := 0, buf := [], fin := false, done := false, err := false, errcode := 0 }) ∧
    (s.busy = true → s.err = false → exec .init s = .next { s with err := true, errcode := 1 }) ∧
    (s.busy = true → s.err = true → exec .init s = .next s)

/-- 43_commands R174, with 30_encoding R83, R84: ABSORB n's words, its errors, and what it leaves, in closed form. The premise of the last clause is 10_state R28's bound on CNT. -/
def Obligations.AbsorbTakesLanesInOrder : Prop :=
  [encode (.absorb 0), encode (.absorb 1), encode (.absorb 2), encode (.absorb 3)] =
    ([0x00000002, 0x00000012, 0x00000022, 0x00000032] : List Word).map (memWrite 0x00 4) ∧
  ∀ (k : BitVec 2) (s : State), s.rst = false →
    (s.err = true → exec (.absorb k) s = .next s) ∧
    (s.err = false → s.busy = true → exec (.absorb k) s = .next { s with err := true, errcode := 1 }) ∧
    (s.err = false → s.busy = false → s.buf.length ≤ 63 →
      let n := k.toNat + 1
      let bytes := s.buf ++ (List.range n).map fun j => s.dataIn.extractLsb' (8 * j) 8
      (s.buf.length + n < 64 →
        exec (.absorb k) s = .next { s with done := false, buf := bytes, len := s.len + BitVec.ofNat 64 (8 * n) }) ∧
      (64 ≤ s.buf.length + n → ∃ b : Block, b.toList = bytes.take 64 ∧
        exec (.absorb k) s = .next { s with
          done := false, pend := [b], buf := bytes.drop 64, len := s.len + BitVec.ofNat 64 (8 * n) }))

/-- 43_commands R175 with 41_padder_splitter R128 (marked derived in the spec): FINISH's word and what it leaves. The premise is 10_state R28's bound on CNT. -/
def Obligations.FinishQueuesThePaddedTail : Prop :=
  encode .finish = memWrite 0x00 4 0x00000003 ∧
  ∀ s : State, s.rst = false → s.err = false → s.busy = false → s.buf.length ≤ 63 →
    ∃ bs : List Block,
      bs.flatMap Vector.toList =
        s.buf ++ [0x80] ++ List.replicate (((55 - (s.buf.length : Int)) % 64).toNat) 0 ++
          (List.range 8).map (fun j => s.len.extractLsb' (8 * j) 8) ∧
      bs.length = (if s.buf.length ≤ 55 then 1 else 2) ∧
      exec .finish s = .next { s with pend := bs, buf := [], len := 0, fin := true, done := false }

/-- 43_commands R170: a 32-bit write of a legal word to CMD is its command, in every state; and where the command is accepted it completes. -/
def Obligations.WriteToCmdPerformsTheCommand : Prop :=
  ∀ (v : Word) (c : Command) (s : State), decodeCommand v = .ok c →
    exec (.wrCmd 4 v) s = exec c.toInstr s ∧
    (s.rst = false → s.err = false → s.busy = false →
      ∃ t, exec (.wrCmd 4 v) s = .next t ∧ acceptCommand c s = .next t)

/-- 43_commands R176, 10_state R39: a DATA_IN write stores the value and does nothing else; its request and its errors; a read returns the value, which INIT and ABSORB keep; its reset value. -/
def Obligations.DataInHoldsTheValueWritten : Prop :=
  State.reset.dataIn = 0x00000000 ∧ (∀ v, encode (.wrDataIn 4 v) = memWrite 0x08 4 v) ∧
  ∀ (v : Word) (s : State), s.rst = false →
    (s.err = false → s.busy = false → exec (.wrDataIn 4 v) s = .next { s with dataIn := v }) ∧
    (s.err = false → s.busy = true → ∀ n, exec (.wrDataIn n v) s = .next { s with err := true, errcode := 1 }) ∧
    (s.err = false → s.busy = false → ∀ n, n ≠ 4 → exec (.wrDataIn n v) s = .next { s with err := true, errcode := 4 }) ∧
    (s.err = true → ∀ n, exec (.wrDataIn n v) s = .next s) ∧
    exec (.rdDataIn 4) s = .next { s with reads := s.dataIn :: s.reads } ∧
    (∀ t, exec .init s = .next t → t.dataIn = s.dataIn) ∧
    (∀ k t, exec (.absorb k) s = .next t → t.dataIn = s.dataIn)

/-- The frame of the writes. That an ACCEPTED write, which finds ACTIVE = 0, keeps W and X is the model's choice and not the spec's: 93 U2 lets them have any value then (notes/assumptions/2.md, DESIGN CHOICE, unsafe); of a rejected or ignored write R218 says it. None of the writes touches W, X, RND, ACTIVE, the reset pin or the host's side; H changes only by INIT; DATA_IN only by a 32-bit WR_DATA_IN; BUF, LEN, PEND, FIN and DONE only by INIT, ABSORB and FINISH. -/
def Obligations.WritesLeaveTheRestAlone : Prop :=
  ∀ (i : Instr) (s t : State), isRead i = false → exec i s = .next t →
    t.w = s.w ∧ t.x = s.x ∧ t.rnd = s.rnd ∧ t.active = s.active ∧
    s.SameHost t ∧ t.reads = s.reads ∧ t.freeCount = s.freeCount ∧
    (t.h = s.h ∨ (encode i = memWrite 0x00 4 0x00000001 ∧ t.h = iv)) ∧
    (t.dataIn = s.dataIn ∨ ∃ v, i = .wrDataIn 4 v ∧ t.dataIn = v) ∧
    (writesCommand i ∨ (t.buf = s.buf ∧ t.len = s.len ∧ t.pend = s.pend ∧ t.fin = s.fin ∧ t.done = s.done))

/-- 70_reset R244: a block that a command queues shows as BUSY = 1 within the accepting write. -/
def Obligations.BusyShowsWithinTheAcceptingWrite : Prop :=
  ∀ s t : State, s.rst = false → s.err = false → s.busy = false → s.buf.length ≤ 63 →
    (exec .finish s = .next t → t.busy = true) ∧
    ∀ k : BitVec 2, exec (.absorb k) s = .next t → (t.busy = true ↔ 64 ≤ s.buf.length + (k.toNat + 1))

/-- 30_encoding R84: lanes n to 3 of DATA_IN are ignored by ABSORB n. -/
def Obligations.AbsorbIgnoresTheOtherLanes : Prop :=
  ∀ (k : BitVec 2) (s : State) (v : Word),
    (∀ j, j ≤ k.toNat → v.extractLsb' (8 * j) 8 = s.dataIn.extractLsb' (8 * j) 8) →
    ∀ t, exec (.absorb k) s = .next t → exec (.absorb k) { s with dataIn := v } = .next { t with dataIn := v }

/-! ### Reads -/

/-- 20_memory R52: every read completes and changes no state of the core; it returns one value, and (a DIGEST read while BUSY = 1 apart) a read repeated at once returns the same value. -/
def Obligations.ReadsChangeNoState : Prop :=
  ∀ (i : Instr) (s : State), isRead i = true →
    ∃ (v : Word) (t : State), exec i s = .next t ∧ t.reads = v :: s.reads ∧ s.SameCore t ∧ s.SameHost t ∧
      (t.freeCount = s.freeCount ∨ (isDigestRead i = true ∧ s.busy = true ∧ t.freeCount = s.freeCount + 1)) ∧
      (isDigestRead i = true ∧ s.busy = true ∨ ∃ u, exec i t = .next u ∧ u.reads = v :: v :: s.reads)

/-- 10_state R35: the value RD_STATUS returns, field by field; and a write to STATUS is an ADDRESS error. The bound is R28's. -/
def Obligations.StatusFieldsAreExact : Prop :=
  ∀ s : State, s.rst = false → s.buf.length ≤ 63 →
    (∃ v : Word, exec (.rdStatus 4) s = .next { s with reads := v :: s.reads } ∧
      v.getLsbD 0 = (s.active || decide (s.pend ≠ [])) ∧ v.getLsbD 1 = s.done ∧ v.getLsbD 2 = s.err ∧ v.getLsbD 3 = false ∧
      v.extractLsb' 4 4 = s.errcode ∧ (v.extractLsb' 8 6).toNat = s.buf.length ∧ v.extractLsb' 14 18 = 0) ∧
    (s.err = false → s.busy = false → ∀ v : Word,
      runRequest (memWrite 0x04 4 v) s = .next { s with err := true, errcode := 4 })

/-- 10_state R37: with BUSY = 0 the DIGEST reads return A, B, C and D; while BUSY = 1 they return a value about which nothing is known, and change nothing of the core. -/
def Obligations.DigestReadsReturnH : Prop :=
  ∀ s : State, s.rst = false →
    (s.busy = false →
      exec (.rdDigest0 4) s = .next { s with reads := s.h.a :: s.reads } ∧
      exec (.rdDigest1 4) s = .next { s with reads := s.h.b :: s.reads } ∧
      exec (.rdDigest2 4) s = .next { s with reads := s.h.c :: s.reads } ∧
      exec (.rdDigest3 4) s = .next { s with reads := s.h.d :: s.reads }) ∧
    (s.busy = true → ∀ i : Instr, i ∈ [.rdDigest0 4, .rdDigest1 4, .rdDigest2 4, .rdDigest3 4] →
      exec i s = .next { s with reads := Config.freeDigest s.freeCount :: s.reads, freeCount := s.freeCount + 1 })

/-- While BUSY = 1 a DIGEST read of the MODEL tells nothing of H: two states that differ in H return the same value. This is the model's choice and not the spec's: 10_state R37 and 93 U1 admit any value, H itself included, and the model takes a free value of its counter alone (notes/assumptions/3.md, DESIGN CHOICE). -/
def Obligations.BusyDigestReadRevealsNothingOfH : Prop :=
  ∀ (i : Instr) (s t : State) (q : Quad), isDigestRead i = true → s.busy = true → exec i s = .next t →
    exec i { s with h := q } = .next { t with h := q }

/-- 10_state R38: LEN_LO and LEN_HI return the two halves of LEN, whether or not BUSY = 1. -/
def Obligations.LenReadsReturnTheHalves : Prop :=
  ∀ s : State, s.rst = false →
    ∃ lo hi : Word, hi ++ lo = s.len ∧
      exec (.rdLenLo 4) s = .next { s with reads := lo :: s.reads } ∧
      exec (.rdLenHi 4) s = .next { s with reads := hi :: s.reads }

/-- 10_state R40: ID always reads 0x0035444D, whose lanes are "M", "D", "5" and 0x00; a write to it is an ADDRESS error. -/
def Obligations.IdReadsTheConstant : Prop :=
  (∀ s : State, s.rst = false → exec (.rdId 4) s = .next { s with reads := 0x0035444D :: s.reads }) ∧
  [lane 0x0035444D 0, lane 0x0035444D 1, lane 0x0035444D 2, lane 0x0035444D 3] =
    ['M'.toNat, 'D'.toNat, '5'.toNat, 0].map (BitVec.ofNat 8) ∧
  ∀ (s : State) (v : Word), s.rst = false → s.err = false → s.busy = false →
    runRequest (memWrite 0x2C 4 v) s = .next { s with err := true, errcode := 4 }

/-- 20_memory R53: the reserved offsets and CMD read 0x00000000, and a write to a reserved offset is an ADDRESS error. -/
def Obligations.ReservedOffsetsAndCmdReadZero : Prop :=
  ∀ s : State,
    (∀ i : Instr, i ∈ [.rdReserved0C 4, .rdReserved28 4, .rdReserved30 4, .rdReserved34 4, .rdReserved38 4, .rdReserved3C 4, .rdCmd 4] →
      exec i s = .next { s with reads := 0x00000000 :: s.reads }) ∧
    (s.rst = false → s.err = false → s.busy = false →
      ∀ (off : Offset) (v : Word), off ∈ ([0x0C, 0x28, 0x30, 0x34, 0x38, 0x3C] : List Offset) →
        runRequest (memWrite off 4 v) s = .next { s with err := true, errcode := 4 })

/-- 20_memory R51: an access that is not 32 bits wide at a multiple of 4: a write is an ADDRESS error and changes nothing else, a read returns 0 and records no error. -/
def Obligations.OnlyAlignedWordAccessesAct : Prop :=
  ∀ (r : Request) (s : State), r.size ≠ 4 ∨ r.off.toNat % 4 ≠ 0 →
    (r.write = false → runRequest r s = .next { s with reads := 0 :: s.reads }) ∧
    (r.write = true → s.rst = false → s.err = false → s.busy = false →
      runRequest r s = .next { s with err := true, errcode := 4 })

/-! ### The compressor -/

/-- 40_rotator_tables R100: bit k of rotl(v, n) is bit (k - n) mod 32 of v, for 1 ≤ n ≤ 31; and its example. -/
def Obligations.RotlMovesEveryBit : Prop :=
  (∀ (v : Word) (n k : Nat), 1 ≤ n → n ≤ 31 → k < 32 → (rotl v n).getLsbD k = v.getLsbD ((k + 32 - n) % 32)) ∧
  rotl 0x12345678 4 = 0x23456781

/-- 40_rotator_tables R104: every entry of T is floor(|sin(i + 1)| * 2^32), with the sine of the reals, in radians. The values of R105 are marked derived in the spec; this says they are what R104 defines. -/
def Obligations.TableTIsTheSineTable : Prop :=
  ∀ i : Fin 64, tableT[i].toNat = ⌊|Real.sin ((i.val : ℝ) + 1)| * 2 ^ 32⌋₊

/-- 40_rotator_tables R107: S[i] = G[i div 16][i mod 4]. -/
def Obligations.TableSRepeatsFourGroups : Prop :=
  ∀ i : Fin 64, some tableS[i] = ([[7, 12, 17, 22], [5, 9, 14, 20], [4, 11, 16, 23], [6, 10, 15, 21]].getD (i.val / 16) [])[i.val % 4]?

/-- 42_compressor R140: byte lane k of word j of a block is byte 4j + k of the block. -/
def Obligations.BlockWordsAreLittleEndian : Prop :=
  ∀ (b : Block) (j : Fin 16) (k : Fin 4), (wordsOf b)[j].extractLsb' (8 * k.val) 8 = b[4 * j.val + k.val]

/-- 42_compressor R141 to R145: bit by bit, the four round functions choose by b, choose by d, add modulo 2, and complement d within 32 bits. -/
def Obligations.RoundFunctionsBitByBit : Prop :=
  ∀ (i : Nat) (b c d : Word) (n : Nat), i < 64 → n < 32 →
    (roundFunction i b c d).getLsbD n =
      if i < 16 then (if b.getLsbD n then c.getLsbD n else d.getLsbD n)
      else if i < 32 then (if d.getLsbD n then b.getLsbD n else c.getLsbD n)
      else if i < 48 then Bool.xor (b.getLsbD n) (Bool.xor (c.getLsbD n) (d.getLsbD n))
      else Bool.xor (c.getLsbD n) (b.getLsbD n || !d.getLsbD n)

/-- 42_compressor R141 to R144, with R146's remark (marked derived in the spec): the word index of each round, and that each group of 16 rounds uses every word exactly once. -/
def Obligations.EachGroupUsesEveryWordOnce : Prop :=
  (∀ i : Nat, i < 64 → (wordIndex i).val =
    if i < 16 then i else if i < 32 then (5 * i + 1) % 16 else if i < 48 then (3 * i + 5) % 16 else 7 * i % 16) ∧
  ∀ q : Nat, q < 4 → ∀ g : Fin 16, ∃ j : Nat, (j < 16 ∧ wordIndex (16 * q + j) = g) ∧
    ∀ j' : Nat, j' < 16 → wordIndex (16 * q + j') = g → j' = j

/-- 42_compressor R152: START. -/
def Obligations.StartLoadsTheHeadBlock : Prop :=
  ∀ (s : State) (b : Block) (rest : List Block), s.rst = false → s.active = false → s.pend = b :: rest →
    coreStep s = { s with x := wordsOf b, w := s.h, rnd := 0, active := true }

/-- 42_compressor R147, R148: what a ROUND step of any index computes: it is W after the step, and after the last one, where ACTIVE = 0 leaves W without a meaning (10_state R24), it is what H grows by. A step that is not the last also increments RND, and does nothing else (R153). -/
def Obligations.RoundReplacesTheWorkingRegisters : Prop :=
  ∀ s : State, s.rst = false → s.active = true →
    let F := roundFunction s.rnd.val s.w.b s.w.c s.w.d + s.w.a + tableT[s.rnd] + s.x[wordIndex s.rnd.val]
    let w : Quad := { a := s.w.d, b := s.w.b + rotl F tableS[s.rnd], c := s.w.b, d := s.w.c }
    (s.rnd.val < 63 → coreStep s = { s with w := w, rnd := s.rnd + 1 }) ∧
    (s.rnd = 63 → (coreStep s).h = { a := s.h.a + w.a, b := s.h.b + w.b, c := s.h.c + w.c, d := s.h.d + w.d })

/-- 42_compressor R154: the end of a block, in the ROUND step with RND = 63. W and X, which no rule reads while ACTIVE = 0 (10_state R24, R25), are not spoken of. -/
def Obligations.LastRoundEndsTheBlock : Prop :=
  ∀ s : State, s.rst = false → s.active = true → s.rnd = 63 →
    let w := oneRound 63 s.x s.w
    let last := s.pend.tail = [] ∧ s.fin = true
    ∃ (w' : Quad) (x' : Vector Word 16), coreStep s = { s with
      w := w', x := x'
      h := { a := s.h.a + w.a, b := s.h.b + w.b, c := s.h.c + w.c, d := s.h.d + w.d }
      pend := s.pend.tail, active := false, rnd := 0
      done := if last then true else s.done
      fin := if last then false else s.fin }

/-- 42_compressor R155: the core has a step exactly when BUSY = 1. -/
def Obligations.CoreStepsExactlyWhenBusy : Prop :=
  ∀ s : State, s.rst = false → (coreStep s = s ↔ s.busy = false)

/-- 42_compressor R156 (marked derived in the spec): from a core that is not compressing, the 65 steps a block, and no fewer, leave H the left fold of compress over PEND, and PEND empty. -/
def Obligations.CoreStepsComputeCompress : Prop :=
  ∀ s : State, s.rst = false → s.active = false →
    (∀ j : Nat, j < 65 * s.pend.length → (coreSteps j s).busy = true) ∧
    (coreSteps (65 * s.pend.length) s).h = compressAll s.pend s.h ∧
    (coreSteps (65 * s.pend.length) s).pend = [] ∧
    (coreSteps (65 * s.pend.length) s).active = false

/-- 70_reset R248, R249 (liveness as a bound): from any state of the invariant, at most 130 core steps reach BUSY = 0, and the host's moves in between leave everything the core works on alone. -/
def Obligations.CompressionEndsWithin130Steps : Prop :=
  (∀ s : State, s.Inv → ∃ k, k ≤ 130 ∧ (coreSteps k s).busy = false) ∧
  ∀ s t : State, s.busy = true → hostMove s = .next t → s.SameButError t

/-! ### Padding -/

/-- 41_padder_splitter R120 to R124 (R124 is marked derived in the spec): the padded message is the message, the marker 0x80, zero bytes, and the bit length in 8 little-endian bytes; its length is 64 * (floor((len + 8) / 64) + 1). -/
def Obligations.PaddingAlignsAndEncodesTheLength : Prop :=
  ∀ m : List Byte,
    (pad m).length = 64 * ((m.length + 8) / 64 + 1) ∧
    (pad m).take m.length = m ∧
    (pad m)[m.length]? = some 0x80 ∧
    (∀ k, m.length < k → k + 8 < (pad m).length → (pad m)[k]? = some 0x00) ∧
    (pad m).drop ((pad m).length - 8) =
      (List.range 8).map (fun j => (BitVec.ofNat 64 (8 * m.length)).extractLsb' (8 * j) 8)

/-- 41_padder_splitter R126: the blocks of split are the consecutive 64-byte pieces of the sequence. -/
def Obligations.SplitCutsConsecutiveBlocks : Prop :=
  ∀ p : List Byte, p.length % 64 = 0 →
    ∃ bs, splitBlocks p = some bs ∧ bs.length = p.length / 64 ∧ bs.flatMap Vector.toList = p ∧
      ∀ t b, bs[t]? = some b → b.toList = (p.drop (64 * t)).take 64

/-- 41_padder_splitter R130 (marked derived in the spec): absorbing a message byte by byte, then padding the tail, gives exactly the blocks of split(pad(m)). -/
def Obligations.StreamingAgreesWithPadAndSplit : Prop :=
  ∀ (m : List Byte) (s : State), s.buf = [] → s.len = 0 →
    ∃ full tail : List Block,
      (absorbAll m s).pend = s.pend ++ full ∧
      full.length = m.length / 64 ∧
      (absorbAll m s).buf = m.drop (64 * (m.length / 64)) ∧
      (absorbAll m s).len = BitVec.ofNat 64 (8 * m.length) ∧
      splitBlocks (padTail (absorbAll m s).buf (absorbAll m s).len) = some tail ∧
      splitBlocks (pad m) = some (full ++ tail)

/-- 43_commands R181, R182: the digest is 16 bytes, byte 4k + j lane j of register k, and its hexadecimal form is 32 lowercase hexadecimal characters, the high nibble of each byte first. -/
def Obligations.DigestBytesAndHex : Prop :=
  ∀ h : Quad,
    (digestBytes h).length = 16 ∧
    (∀ j : Nat, j < 4 →
      (digestBytes h)[j]? = some (h.a.extractLsb' (8 * j) 8) ∧ (digestBytes h)[4 + j]? = some (h.b.extractLsb' (8 * j) 8) ∧
      (digestBytes h)[8 + j]? = some (h.c.extractLsb' (8 * j) 8) ∧ (digestBytes h)[12 + j]? = some (h.d.extractLsb' (8 * j) 8)) ∧
    (hexDigest h).length = 32 ∧ (∀ c ∈ hexDigest h, c ∈ "0123456789abcdef".toList) ∧
    ∀ (k : Nat) (b : Byte), (digestBytes h)[k]? = some b →
      (hexDigest h)[2 * k]? = "0123456789abcdef".toList[b.toNat / 16]? ∧ (hexDigest h)[2 * k + 1]? = "0123456789abcdef".toList[b.toNat % 16]?

/-! ### The whole machine -/

/-- The invariant of Safety.lean holds in the state after reset. -/
def Obligations.ResetStateMeetsTheInvariant : Prop := State.reset.Inv

/-- Every step keeps the invariant: from every state that meets it, whatever moves next. -/
def Obligations.EveryStepKeepsTheInvariant : Prop := ∀ s t : State, s.Inv → step s = .next t → t.Inv

/-- 10_state R23 (marked derived in the spec): H is at every point the left fold of compress over the blocks whose compression has finished since the last INIT or reset, in order, from IV. -/
def Obligations.DigestIsTheFoldOfFinishedBlocks : Prop :=
  (State.reset).h = compressAll [] iv ∧
  ∀ (finished : List Block) (s t : State), s.Inv → s.h = compressAll finished iv → step s = .next t →
    t.h = compressAll (finishedAfter finished s) iv

/-- 10_state R22: H is written in exactly three places: the end of a block adds W after its last round onto it, and INIT and reset set it to IV. -/
def Obligations.HIsWrittenInThreePlaces : Prop :=
  ∀ s t : State, step s = .next t → t.h ≠ s.h →
    (s.endsBlock = true ∧ t.h = addQuad s.h (oneRound 63 s.x s.w)) ∨ (s.acceptsInit = true ∧ t.h = iv) ∨ (s.movesReset = true ∧ t.h = iv)

/-- 10_state R41: DONE is cleared by reset and by the acceptance of INIT, ABSORB and FINISH, it is set when the last block queued by a FINISH finishes, and every other step leaves it unchanged. -/
def Obligations.DoneIsSetAndClearedAsStated : Prop :=
  ∀ s t : State, step s = .next t →
    let accepted := ∃ c : Command, c ≠ .nop ∧ s.nextRequest = some (memWrite 0x00 4 (encodeCommand c)) ∧
      s.busy = false ∧ s.rst = false ∧ (s.err = true → c = .init)
    let finished := s.endsBlock = true ∧ s.fin = true ∧ s.pend.tail = []
    (s.movesReset = true ∨ accepted → t.done = false) ∧
    (finished → t.done = true) ∧
    (s.movesReset = false → ¬ accepted → ¬ finished → t.done = s.done)

/-- 10_state R38, 20_memory R55: LEN changes only at the acceptance of INIT, ABSORB and FINISH (BUSY = 0, and ERR = 0 unless it is INIT: 60_exceptions R217), and by reset (70_reset R240). -/
def Obligations.LenChangesOnlyAtAcceptance : Prop :=
  ∀ s t : State, step s = .next t → t.len ≠ s.len → s.movesReset = true ∨
    ∃ c : Command, c ≠ .nop ∧ s.nextRequest = some (memWrite 0x00 4 (encodeCommand c)) ∧
      s.busy = false ∧ s.rst = false ∧ (s.err = true → c = .init)

/-- 70_reset R240 with 10_state R43: what asserting reset leaves, at any point, and that it goes on so while `rst` is asserted: no transaction has an effect, a read returns 0, the core makes no step. The values W and X take are the model's (notes/assumptions/1.md) and are not stated. -/
def Obligations.ResetGivesEveryElementItsValue : Prop :=
  (∀ s : State, nextTurn s = .assertRst ∨ nextTurn s = .releaseRst → ∃ t, step s = .next t ∧ t.CoreReset ∧
    (t.rst = true ↔ nextTurn s = .assertRst) ∧ t.program = s.program ∧ t.turns = s.turns.tail ∧ t.reads = s.reads) ∧
  ∀ (s : State), s.rst = true →
    coreStep s = s ∧
    (∀ r : Request, r.write = true → runRequest r s = .next s) ∧
    (∀ r : Request, r.write = false → runRequest r s = .next { s with reads := 0 :: s.reads })

/-- 70_reset R242: after reset the core is ready at once: BUSY = 0, no error, and any command is accepted. -/
def Obligations.ReadyRightAfterReset : Prop :=
  State.reset.CoreReset ∧ State.reset.rst = false ∧ State.reset.busy = false ∧ State.reset.statusWord = 0x00000000 ∧
  ∀ c : Command, ∃ t, exec c.toInstr State.reset = .next t ∧ acceptCommand c State.reset = .next t ∧ t.err = false

/-- 70_reset R241 (marked derived in the spec): with BUSY = 0, no read but that of DATA_IN tells INIT from reset. -/
def Obligations.InitAndResetReadAlike : Prop :=
  ∀ (s : State) (i : Instr), s.rst = false → s.busy = false → isRead i = true → i ≠ .rdDataIn 4 →
    ∃ t u v, exec .init s = .next t ∧ exec i t = .next u ∧ exec i (applyReset false s) = .next v ∧ u.reads = v.reads

/-! ### Host sequences, for every message -/

/-- 43_commands R178 (marked derived in the spec): for every message m, UPDATE m from a core that is ready and between messages ends with DONE = 1, BUSY = 0, ERR = 0, CNT = 0, LEN = 0 and H the left fold of compress over split(pad(m)). -/
def Obligations.UpdateFoldsCompressOverThePaddedMessage : Prop :=
  ∀ (m : List Byte) (s : State), s.Inv → s.ready = true → s.betweenMessages = true → s.turns = [] → s.program = opsUpdate m →
    ∃ (k : Nat) (t : State) (bs : List Block), Host.Core.run Sys2Proof.core k s = .next t ∧ t.program = [] ∧
      t.busy = false ∧ t.err = false ∧ t.done = true ∧ t.buf = [] ∧ t.len = 0 ∧
      splitBlocks (pad m) = some bs ∧ t.h = compressAll bs s.h

/-- 43_commands R179 (marked derived in the spec): for every message m and from every state of the invariant that is out of reset with BUSY = 0, whatever was absorbed or recorded before, HASH m ends with the last four reads being the digest of m from IV. -/
def Obligations.HashReadsTheDigestOfTheMessage : Prop :=
  ∀ (m : List Byte) (s : State), s.Inv → s.rst = false → s.busy = false → s.turns = [] → s.program = opsHash m →
    ∃ (k : Nat) (t : State) (bs : List Block) (before : List Word), Host.Core.run Sys2Proof.core k s = .next t ∧ t.program = [] ∧
      splitBlocks (pad m) = some bs ∧
      t.reads = (compressAll bs iv).d :: (compressAll bs iv).c :: (compressAll bs iv).b :: (compressAll bs iv).a :: before
end

