-- ==== Sys2Proof/Laws/State.lean ====
section
/-! SUPPORT. What each update of the state does to each field: true by rfl, and simp lemmas, so that no proof unfolds a record update. -/

namespace Sys2Proof.Machine

/-! ### `raiseError` (60_exceptions R212, R218) -/

@[simp] theorem raiseError_h (e : ErrorCode) (s : State) : (raiseError e s).h = s.h := rfl
@[simp] theorem raiseError_w (e : ErrorCode) (s : State) : (raiseError e s).w = s.w := rfl
@[simp] theorem raiseError_x (e : ErrorCode) (s : State) : (raiseError e s).x = s.x := rfl
@[simp] theorem raiseError_rnd (e : ErrorCode) (s : State) : (raiseError e s).rnd = s.rnd := rfl
@[simp] theorem raiseError_active (e : ErrorCode) (s : State) : (raiseError e s).active = s.active := rfl
@[simp] theorem raiseError_pend (e : ErrorCode) (s : State) : (raiseError e s).pend = s.pend := rfl
@[simp] theorem raiseError_buf (e : ErrorCode) (s : State) : (raiseError e s).buf = s.buf := rfl
@[simp] theorem raiseError_len (e : ErrorCode) (s : State) : (raiseError e s).len = s.len := rfl
@[simp] theorem raiseError_fin (e : ErrorCode) (s : State) : (raiseError e s).fin = s.fin := rfl
@[simp] theorem raiseError_dataIn (e : ErrorCode) (s : State) : (raiseError e s).dataIn = s.dataIn := rfl
@[simp] theorem raiseError_done (e : ErrorCode) (s : State) : (raiseError e s).done = s.done := rfl
@[simp] theorem raiseError_err (e : ErrorCode) (s : State) : (raiseError e s).err = true := rfl
@[simp] theorem raiseError_errcode (e : ErrorCode) (s : State) : (raiseError e s).errcode = errorNumber e := rfl
@[simp] theorem raiseError_rst (e : ErrorCode) (s : State) : (raiseError e s).rst = s.rst := rfl
@[simp] theorem raiseError_program (e : ErrorCode) (s : State) : (raiseError e s).program = s.program := rfl
@[simp] theorem raiseError_turns (e : ErrorCode) (s : State) : (raiseError e s).turns = s.turns := rfl
@[simp] theorem raiseError_reads (e : ErrorCode) (s : State) : (raiseError e s).reads = s.reads := rfl
@[simp] theorem raiseError_freeCount (e : ErrorCode) (s : State) : (raiseError e s).freeCount = s.freeCount := rfl

/-! ### `acceptInit` (43_commands R172) -/

@[simp] theorem acceptInit_h (s : State) : (acceptInit s).h = iv := rfl
@[simp] theorem acceptInit_w (s : State) : (acceptInit s).w = s.w := rfl
@[simp] theorem acceptInit_x (s : State) : (acceptInit s).x = s.x := rfl
@[simp] theorem acceptInit_rnd (s : State) : (acceptInit s).rnd = s.rnd := rfl
@[simp] theorem acceptInit_active (s : State) : (acceptInit s).active = s.active := rfl
@[simp] theorem acceptInit_pend (s : State) : (acceptInit s).pend = s.pend := rfl
@[simp] theorem acceptInit_buf (s : State) : (acceptInit s).buf = [] := rfl
@[simp] theorem acceptInit_len (s : State) : (acceptInit s).len = 0 := rfl
@[simp] theorem acceptInit_fin (s : State) : (acceptInit s).fin = false := rfl
@[simp] theorem acceptInit_dataIn (s : State) : (acceptInit s).dataIn = s.dataIn := rfl
@[simp] theorem acceptInit_done (s : State) : (acceptInit s).done = false := rfl
@[simp] theorem acceptInit_err (s : State) : (acceptInit s).err = false := rfl
@[simp] theorem acceptInit_errcode (s : State) : (acceptInit s).errcode = 0 := rfl
@[simp] theorem acceptInit_rst (s : State) : (acceptInit s).rst = s.rst := rfl
@[simp] theorem acceptInit_program (s : State) : (acceptInit s).program = s.program := rfl
@[simp] theorem acceptInit_turns (s : State) : (acceptInit s).turns = s.turns := rfl
@[simp] theorem acceptInit_reads (s : State) : (acceptInit s).reads = s.reads := rfl
@[simp] theorem acceptInit_freeCount (s : State) : (acceptInit s).freeCount = s.freeCount := rfl

/-! ### `queueTail` (43_commands R175) -/

@[simp] theorem queueTail_h (bs : List Block) (s : State) : (queueTail bs s).h = s.h := rfl
@[simp] theorem queueTail_w (bs : List Block) (s : State) : (queueTail bs s).w = s.w := rfl
@[simp] theorem queueTail_x (bs : List Block) (s : State) : (queueTail bs s).x = s.x := rfl
@[simp] theorem queueTail_rnd (bs : List Block) (s : State) : (queueTail bs s).rnd = s.rnd := rfl
@[simp] theorem queueTail_active (bs : List Block) (s : State) : (queueTail bs s).active = s.active := rfl
@[simp] theorem queueTail_pend (bs : List Block) (s : State) : (queueTail bs s).pend = bs := rfl
@[simp] theorem queueTail_buf (bs : List Block) (s : State) : (queueTail bs s).buf = [] := rfl
@[simp] theorem queueTail_len (bs : List Block) (s : State) : (queueTail bs s).len = 0 := rfl
@[simp] theorem queueTail_fin (bs : List Block) (s : State) : (queueTail bs s).fin = true := rfl
@[simp] theorem queueTail_dataIn (bs : List Block) (s : State) : (queueTail bs s).dataIn = s.dataIn := rfl
@[simp] theorem queueTail_done (bs : List Block) (s : State) : (queueTail bs s).done = false := rfl
@[simp] theorem queueTail_err (bs : List Block) (s : State) : (queueTail bs s).err = s.err := rfl
@[simp] theorem queueTail_errcode (bs : List Block) (s : State) : (queueTail bs s).errcode = s.errcode := rfl
@[simp] theorem queueTail_rst (bs : List Block) (s : State) : (queueTail bs s).rst = s.rst := rfl
@[simp] theorem queueTail_program (bs : List Block) (s : State) : (queueTail bs s).program = s.program := rfl
@[simp] theorem queueTail_turns (bs : List Block) (s : State) : (queueTail bs s).turns = s.turns := rfl
@[simp] theorem queueTail_reads (bs : List Block) (s : State) : (queueTail bs s).reads = s.reads := rfl
@[simp] theorem queueTail_freeCount (bs : List Block) (s : State) : (queueTail bs s).freeCount = s.freeCount := rfl

/-! ### `storeDataIn` (43_commands R176) -/

@[simp] theorem storeDataIn_h (v : Word) (s : State) : (storeDataIn v s).h = s.h := rfl
@[simp] theorem storeDataIn_w (v : Word) (s : State) : (storeDataIn v s).w = s.w := rfl
@[simp] theorem storeDataIn_x (v : Word) (s : State) : (storeDataIn v s).x = s.x := rfl
@[simp] theorem storeDataIn_rnd (v : Word) (s : State) : (storeDataIn v s).rnd = s.rnd := rfl
@[simp] theorem storeDataIn_active (v : Word) (s : State) : (storeDataIn v s).active = s.active := rfl
@[simp] theorem storeDataIn_pend (v : Word) (s : State) : (storeDataIn v s).pend = s.pend := rfl
@[simp] theorem storeDataIn_buf (v : Word) (s : State) : (storeDataIn v s).buf = s.buf := rfl
@[simp] theorem storeDataIn_len (v : Word) (s : State) : (storeDataIn v s).len = s.len := rfl
@[simp] theorem storeDataIn_fin (v : Word) (s : State) : (storeDataIn v s).fin = s.fin := rfl
@[simp] theorem storeDataIn_dataIn (v : Word) (s : State) : (storeDataIn v s).dataIn = v := rfl
@[simp] theorem storeDataIn_done (v : Word) (s : State) : (storeDataIn v s).done = s.done := rfl
@[simp] theorem storeDataIn_err (v : Word) (s : State) : (storeDataIn v s).err = s.err := rfl
@[simp] theorem storeDataIn_errcode (v : Word) (s : State) : (storeDataIn v s).errcode = s.errcode := rfl
@[simp] theorem storeDataIn_rst (v : Word) (s : State) : (storeDataIn v s).rst = s.rst := rfl
@[simp] theorem storeDataIn_program (v : Word) (s : State) : (storeDataIn v s).program = s.program := rfl
@[simp] theorem storeDataIn_turns (v : Word) (s : State) : (storeDataIn v s).turns = s.turns := rfl
@[simp] theorem storeDataIn_reads (v : Word) (s : State) : (storeDataIn v s).reads = s.reads := rfl
@[simp] theorem storeDataIn_freeCount (v : Word) (s : State) : (storeDataIn v s).freeCount = s.freeCount := rfl

/-! ### `returnValue` (20_memory R52) -/

@[simp] theorem returnValue_h (v : Word) (s : State) : (returnValue v s).h = s.h := rfl
@[simp] theorem returnValue_w (v : Word) (s : State) : (returnValue v s).w = s.w := rfl
@[simp] theorem returnValue_x (v : Word) (s : State) : (returnValue v s).x = s.x := rfl
@[simp] theorem returnValue_rnd (v : Word) (s : State) : (returnValue v s).rnd = s.rnd := rfl
@[simp] theorem returnValue_active (v : Word) (s : State) : (returnValue v s).active = s.active := rfl
@[simp] theorem returnValue_pend (v : Word) (s : State) : (returnValue v s).pend = s.pend := rfl
@[simp] theorem returnValue_buf (v : Word) (s : State) : (returnValue v s).buf = s.buf := rfl
@[simp] theorem returnValue_len (v : Word) (s : State) : (returnValue v s).len = s.len := rfl
@[simp] theorem returnValue_fin (v : Word) (s : State) : (returnValue v s).fin = s.fin := rfl
@[simp] theorem returnValue_dataIn (v : Word) (s : State) : (returnValue v s).dataIn = s.dataIn := rfl
@[simp] theorem returnValue_done (v : Word) (s : State) : (returnValue v s).done = s.done := rfl
@[simp] theorem returnValue_err (v : Word) (s : State) : (returnValue v s).err = s.err := rfl
@[simp] theorem returnValue_errcode (v : Word) (s : State) : (returnValue v s).errcode = s.errcode := rfl
@[simp] theorem returnValue_rst (v : Word) (s : State) : (returnValue v s).rst = s.rst := rfl
@[simp] theorem returnValue_program (v : Word) (s : State) : (returnValue v s).program = s.program := rfl
@[simp] theorem returnValue_turns (v : Word) (s : State) : (returnValue v s).turns = s.turns := rfl
@[simp] theorem returnValue_reads (v : Word) (s : State) : (returnValue v s).reads = v :: s.reads := rfl
@[simp] theorem returnValue_freeCount (v : Word) (s : State) : (returnValue v s).freeCount = s.freeCount := rfl

/-! ### `freeDigestRead` (10_state R37) -/

@[simp] theorem freeDigestRead_h (s : State) : (freeDigestRead s).h = s.h := rfl
@[simp] theorem freeDigestRead_w (s : State) : (freeDigestRead s).w = s.w := rfl
@[simp] theorem freeDigestRead_x (s : State) : (freeDigestRead s).x = s.x := rfl
@[simp] theorem freeDigestRead_rnd (s : State) : (freeDigestRead s).rnd = s.rnd := rfl
@[simp] theorem freeDigestRead_active (s : State) : (freeDigestRead s).active = s.active := rfl
@[simp] theorem freeDigestRead_pend (s : State) : (freeDigestRead s).pend = s.pend := rfl
@[simp] theorem freeDigestRead_buf (s : State) : (freeDigestRead s).buf = s.buf := rfl
@[simp] theorem freeDigestRead_len (s : State) : (freeDigestRead s).len = s.len := rfl
@[simp] theorem freeDigestRead_fin (s : State) : (freeDigestRead s).fin = s.fin := rfl
@[simp] theorem freeDigestRead_dataIn (s : State) : (freeDigestRead s).dataIn = s.dataIn := rfl
@[simp] theorem freeDigestRead_done (s : State) : (freeDigestRead s).done = s.done := rfl
@[simp] theorem freeDigestRead_err (s : State) : (freeDigestRead s).err = s.err := rfl
@[simp] theorem freeDigestRead_errcode (s : State) : (freeDigestRead s).errcode = s.errcode := rfl
@[simp] theorem freeDigestRead_rst (s : State) : (freeDigestRead s).rst = s.rst := rfl
@[simp] theorem freeDigestRead_program (s : State) : (freeDigestRead s).program = s.program := rfl
@[simp] theorem freeDigestRead_turns (s : State) : (freeDigestRead s).turns = s.turns := rfl
@[simp] theorem freeDigestRead_reads (s : State) : (freeDigestRead s).reads = Config.freeDigest s.freeCount :: s.reads := rfl
@[simp] theorem freeDigestRead_freeCount (s : State) : (freeDigestRead s).freeCount = s.freeCount + 1 := rfl

/-! ### `applyReset` (70_reset R240) -/

@[simp] theorem applyReset_h (level : Bool) (s : State) : (applyReset level s).h = State.reset.h := rfl
@[simp] theorem applyReset_w (level : Bool) (s : State) : (applyReset level s).w = State.reset.w := rfl
@[simp] theorem applyReset_x (level : Bool) (s : State) : (applyReset level s).x = State.reset.x := rfl
@[simp] theorem applyReset_rnd (level : Bool) (s : State) : (applyReset level s).rnd = State.reset.rnd := rfl
@[simp] theorem applyReset_active (level : Bool) (s : State) : (applyReset level s).active = State.reset.active := rfl
@[simp] theorem applyReset_pend (level : Bool) (s : State) : (applyReset level s).pend = State.reset.pend := rfl
@[simp] theorem applyReset_buf (level : Bool) (s : State) : (applyReset level s).buf = State.reset.buf := rfl
@[simp] theorem applyReset_len (level : Bool) (s : State) : (applyReset level s).len = State.reset.len := rfl
@[simp] theorem applyReset_fin (level : Bool) (s : State) : (applyReset level s).fin = State.reset.fin := rfl
@[simp] theorem applyReset_dataIn (level : Bool) (s : State) : (applyReset level s).dataIn = State.reset.dataIn := rfl
@[simp] theorem applyReset_done (level : Bool) (s : State) : (applyReset level s).done = State.reset.done := rfl
@[simp] theorem applyReset_err (level : Bool) (s : State) : (applyReset level s).err = State.reset.err := rfl
@[simp] theorem applyReset_errcode (level : Bool) (s : State) : (applyReset level s).errcode = State.reset.errcode := rfl
@[simp] theorem applyReset_rst (level : Bool) (s : State) : (applyReset level s).rst = level := rfl
@[simp] theorem applyReset_program (level : Bool) (s : State) : (applyReset level s).program = s.program := rfl
@[simp] theorem applyReset_turns (level : Bool) (s : State) : (applyReset level s).turns = s.turns := rfl
@[simp] theorem applyReset_reads (level : Bool) (s : State) : (applyReset level s).reads = s.reads := rfl
@[simp] theorem applyReset_freeCount (level : Bool) (s : State) : (applyReset level s).freeCount = s.freeCount := rfl

/-! ### `startStep` (42_compressor R152) -/

@[simp] theorem startStep_h (b : Block) (s : State) : (startStep b s).h = s.h := rfl
@[simp] theorem startStep_w (b : Block) (s : State) : (startStep b s).w = s.h := rfl
@[simp] theorem startStep_x (b : Block) (s : State) : (startStep b s).x = wordsOf b := rfl
@[simp] theorem startStep_rnd (b : Block) (s : State) : (startStep b s).rnd = 0 := rfl
@[simp] theorem startStep_active (b : Block) (s : State) : (startStep b s).active = true := rfl
@[simp] theorem startStep_pend (b : Block) (s : State) : (startStep b s).pend = s.pend := rfl
@[simp] theorem startStep_buf (b : Block) (s : State) : (startStep b s).buf = s.buf := rfl
@[simp] theorem startStep_len (b : Block) (s : State) : (startStep b s).len = s.len := rfl
@[simp] theorem startStep_fin (b : Block) (s : State) : (startStep b s).fin = s.fin := rfl
@[simp] theorem startStep_dataIn (b : Block) (s : State) : (startStep b s).dataIn = s.dataIn := rfl
@[simp] theorem startStep_done (b : Block) (s : State) : (startStep b s).done = s.done := rfl
@[simp] theorem startStep_err (b : Block) (s : State) : (startStep b s).err = s.err := rfl
@[simp] theorem startStep_errcode (b : Block) (s : State) : (startStep b s).errcode = s.errcode := rfl
@[simp] theorem startStep_rst (b : Block) (s : State) : (startStep b s).rst = s.rst := rfl
@[simp] theorem startStep_program (b : Block) (s : State) : (startStep b s).program = s.program := rfl
@[simp] theorem startStep_turns (b : Block) (s : State) : (startStep b s).turns = s.turns := rfl
@[simp] theorem startStep_reads (b : Block) (s : State) : (startStep b s).reads = s.reads := rfl
@[simp] theorem startStep_freeCount (b : Block) (s : State) : (startStep b s).freeCount = s.freeCount := rfl

/-! ### `endOfBlock` (42_compressor R154) -/

@[simp] theorem endOfBlock_h (s : State) : (endOfBlock s).h = addQuad s.h s.w := rfl
@[simp] theorem endOfBlock_w (s : State) : (endOfBlock s).w = s.w := rfl
@[simp] theorem endOfBlock_x (s : State) : (endOfBlock s).x = s.x := rfl
@[simp] theorem endOfBlock_rnd (s : State) : (endOfBlock s).rnd = 0 := rfl
@[simp] theorem endOfBlock_active (s : State) : (endOfBlock s).active = false := rfl
@[simp] theorem endOfBlock_pend (s : State) : (endOfBlock s).pend = s.pend.tail := rfl
@[simp] theorem endOfBlock_buf (s : State) : (endOfBlock s).buf = s.buf := rfl
@[simp] theorem endOfBlock_len (s : State) : (endOfBlock s).len = s.len := rfl
@[simp] theorem endOfBlock_fin (s : State) : (endOfBlock s).fin = (!finishesMessage s && s.fin) := rfl
@[simp] theorem endOfBlock_dataIn (s : State) : (endOfBlock s).dataIn = s.dataIn := rfl
@[simp] theorem endOfBlock_done (s : State) : (endOfBlock s).done = (finishesMessage s || s.done) := rfl
@[simp] theorem endOfBlock_err (s : State) : (endOfBlock s).err = s.err := rfl
@[simp] theorem endOfBlock_errcode (s : State) : (endOfBlock s).errcode = s.errcode := rfl
@[simp] theorem endOfBlock_rst (s : State) : (endOfBlock s).rst = s.rst := rfl
@[simp] theorem endOfBlock_program (s : State) : (endOfBlock s).program = s.program := rfl
@[simp] theorem endOfBlock_turns (s : State) : (endOfBlock s).turns = s.turns := rfl
@[simp] theorem endOfBlock_reads (s : State) : (endOfBlock s).reads = s.reads := rfl
@[simp] theorem endOfBlock_freeCount (s : State) : (endOfBlock s).freeCount = s.freeCount := rfl

/-! ### BUSY and the checks read only part of the state -/

@[simp] theorem raiseError_busy (e : ErrorCode) (s : State) : (raiseError e s).busy = s.busy := rfl
@[simp] theorem acceptInit_busy (s : State) : (acceptInit s).busy = s.busy := rfl
@[simp] theorem storeDataIn_busy (v : Word) (s : State) : (storeDataIn v s).busy = s.busy := rfl
@[simp] theorem returnValue_busy (v : Word) (s : State) : (returnValue v s).busy = s.busy := rfl
@[simp] theorem freeDigestRead_busy (s : State) : (freeDigestRead s).busy = s.busy := rfl
@[simp] theorem applyReset_busy (level : Bool) (s : State) : (applyReset level s).busy = false := rfl
@[simp] theorem startStep_busy (b : Block) (s : State) : (startStep b s).busy = true := rfl

/-- BUSY = 0 says that no block is being compressed and none is pending (10_state R35). -/
theorem busy_eq_false_iff (s : State) : s.busy = false ↔ s.active = false ∧ s.pend = [] := by
  simp [State.busy]

end Sys2Proof.Machine
end

