-- ==== Sys2Proof/Laws/Ops.lean ====
section
/-! SUPPORT. What each shared operation of Machine/Ops.lean and Machine/Agents.lean can do, said once: the checks of a write, a bus write, the reads, and the move of each agent. -/

namespace Sys2Proof.Machine

/-! ### The decoder on the words it encodes -/

theorem decodeCommand_encodeCommand (c : Command) : decodeCommand (encodeCommand c) = .ok c := by
  cases c with
  | absorb k => revert k; decide
  | _ => decide

theorem legalCommand_encodeCommand (c : Command) : legalCommand (encodeCommand c) = true := by
  cases c with
  | absorb k => revert k; decide
  | _ => decide

/-! ### The checks of a write (60_exceptions R217) -/

theorem ready_iff (s : State) : s.ready = true ↔ s.rst = false ∧ s.busy = false ∧ s.err = false := by
  simp [State.ready, and_assoc]

theorem isRecovery_iff (off : Offset) (size : Nat) (v : Word) (s : State) :
    isRecovery off size v s = true ↔ off = offCmd ∧ size = 4 ∧ v = encodeCommand .init ∧ s.busy = false := by
  simp [isRecovery, and_assoc]

theorem badAddress_eq_false_iff (off : Offset) (size : Nat) :
    badAddress off size = false ↔ size = 4 ∧ (off = offCmd ∨ off = offDataIn) := by
  constructor
  · intro h
    simp only [badAddress, Bool.or_eq_false_iff, bne_eq_false_iff_eq, Bool.and_eq_false_iff] at h
    exact ⟨h.1.1, h.2⟩
  · rintro ⟨rfl, rfl | rfl⟩ <;> decide

theorem checkWrite_of_rst (off : Offset) (size : Nat) (v : Word) {s : State} (h : s.rst = true) :
    checkWrite off size v s = .ignore := by simp [checkWrite, h]

theorem checkWrite_of_err (off : Offset) (size : Nat) (v : Word) {s : State} (hr : s.rst = false) (he : s.err = true) :
    checkWrite off size v s = if isRecovery off size v s then .perform else .ignore := by simp [checkWrite, hr, he]

theorem checkWrite_of_busy (off : Offset) (size : Nat) (v : Word) {s : State} (hr : s.rst = false) (he : s.err = false)
    (hb : s.busy = true) : checkWrite off size v s = .reject .busy := by simp [checkWrite, hr, he, hb]

/-- With no error recorded and BUSY = 0, only the address and the command word decide. -/
theorem checkWrite_of_ready (off : Offset) (size : Nat) (v : Word) {s : State} (h : s.ready = true) :
    checkWrite off size v s =
      if badAddress off size then .reject .address
      else if off = offCmd ∧ legalCommand v = false then .reject .illegal
      else .perform := by
  obtain ⟨hr, hb, he⟩ := (ready_iff s).1 h
  simp [checkWrite, hr, hb, he]

/-- What a performed write tells about the state it acts on. -/
theorem checkWrite_perform {off : Offset} {size : Nat} {v : Word} {s : State} (h : checkWrite off size v s = .perform) :
    s.rst = false ∧ s.busy = false ∧ badAddress off size = false ∧ (off = offCmd → legalCommand v = true) ∧
      (s.err = true → off = offCmd ∧ v = encodeCommand .init) := by
  unfold checkWrite at h
  split at h
  · cases h
  · rename_i hr
    have hr : s.rst = false := by simpa using hr
    split at h
    · split at h
      · rename_i hrec
        obtain ⟨rfl, rfl, rfl, hb⟩ := (isRecovery_iff _ _ _ _).1 hrec
        exact ⟨hr, hb, by decide, fun _ => legalCommand_encodeCommand .init, fun _ => ⟨rfl, rfl⟩⟩
      · cases h
    · rename_i he
      split at h
      · cases h
      · rename_i hb
        split at h
        · cases h
        · rename_i ha
          split at h
          · cases h
          · rename_i hl
            refine ⟨hr, by simpa using hb, by simpa using ha, fun ho => ?_, fun hc => absurd hc he⟩
            by_contra hv
            exact hl ⟨ho, by simpa using hv⟩

/-- What a rejected write tells: no error was recorded, and the code is one of the three that R210 records. -/
theorem checkWrite_reject {off : Offset} {size : Nat} {v : Word} {s : State} {e : ErrorCode}
    (h : checkWrite off size v s = .reject e) :
    s.rst = false ∧ s.err = false ∧ (e = .busy ∨ e = .address ∨ e = .illegal) := by
  unfold checkWrite at h
  split at h
  · cases h
  · rename_i hr
    split at h
    · split at h <;> cases h
    · rename_i he
      refine ⟨by simpa using hr, by simpa using he, ?_⟩
      split at h
      · cases h; exact .inl rfl
      · split at h
        · cases h; exact .inr (.inl rfl)
        · split at h
          · cases h; exact .inr (.inr rfl)
          · cases h

/-! ### A bus write -/

theorem busWrite_of_ignore {off : Offset} {size : Nat} {v : Word} {effect : State → Result} {s : State}
    (h : checkWrite off size v s = .ignore) : busWrite off size v effect s = .next s := by simp [busWrite, h]

theorem busWrite_of_reject {off : Offset} {size : Nat} {v : Word} {effect : State → Result} {s : State} {e : ErrorCode}
    (h : checkWrite off size v s = .reject e) : busWrite off size v effect s = .next (raiseError e s) := by simp [busWrite, h]

theorem busWrite_of_perform {off : Offset} {size : Nat} {v : Word} {effect : State → Result} {s : State}
    (h : checkWrite off size v s = .perform) : busWrite off size v effect s = effect s := by simp [busWrite, h]

/-- Everything a bus write can do. -/
theorem busWrite_cases (off : Offset) (size : Nat) (v : Word) (effect : State → Result) (s : State) :
    (checkWrite off size v s = .ignore ∧ busWrite off size v effect s = .next s) ∨
    (∃ e, checkWrite off size v s = .reject e ∧ busWrite off size v effect s = .next (raiseError e s)) ∨
    (checkWrite off size v s = .perform ∧ busWrite off size v effect s = effect s) := by
  cases h : checkWrite off size v s with
  | ignore => exact .inl ⟨rfl, busWrite_of_ignore h⟩
  | reject e => exact .inr (.inl ⟨e, rfl, busWrite_of_reject h⟩)
  | perform => exact .inr (.inr ⟨rfl, busWrite_of_perform h⟩)

/-- A write to an offset other than CMD and DATA_IN is never performed (20_memory R54). -/
theorem checkWrite_ne_perform_of_bad {off : Offset} {size : Nat} {v : Word} {s : State} (h : badAddress off size = true) :
    checkWrite off size v s ≠ .perform := fun hp => by
  have := (checkWrite_perform hp).2.2.1
  simp [h] at this

/-! ### Reads -/

theorem busRead_eq (size : Nat) (v : Word) (s : State) :
    busRead size v s = .next (returnValue (if readsZero size s then 0 else v) s) := rfl

/-- Everything a read of a digest register can do (10_state R37). -/
theorem digestRead_cases (size : Nat) (v : Word) (s : State) :
    (readsZero size s = true ∧ digestRead size v s = .next (returnValue 0 s)) ∨
    (readsZero size s = false ∧ s.busy = true ∧ digestRead size v s = .next (freeDigestRead s)) ∨
    (readsZero size s = false ∧ s.busy = false ∧ digestRead size v s = .next (returnValue v s)) := by
  unfold digestRead
  cases readsZero size s <;> cases s.busy <;> simp

theorem readsZero_eq_false_iff (size : Nat) (s : State) : readsZero size s = false ↔ s.rst = false ∧ size = 4 := by
  simp [readsZero]

/-! ### The moves -/

/-- Everything a step can be: the host's move, a core step, or an edge of the reset input. -/
theorem step_cases (s : State) :
    (nextTurn s = .host ∧ step s = hostMove { s with turns := s.turns.tail }) ∨
    (nextTurn s = .core ∧ step s = .next (coreStep { s with turns := s.turns.tail })) ∨
    (∃ level, s.movesReset = true ∧ step s = .next (applyReset level { s with turns := s.turns.tail })) := by
  unfold step moveNext
  cases h : nextTurn s with
  | host => exact .inl ⟨rfl, rfl⟩
  | core => exact .inr (.inl ⟨rfl, rfl⟩)
  | assertRst => exact .inr (.inr ⟨true, by simp [State.movesReset, h], rfl⟩)
  | releaseRst => exact .inr (.inr ⟨false, by simp [State.movesReset, h], rfl⟩)

/-- Everything a core step can do (42_compressor R152 to R155). -/
theorem coreStep_cases (s : State) :
    (coreStep s = s ∧ (s.rst = true ∨ s.busy = false)) ∨
    (s.rst = false ∧ s.active = false ∧ ∃ b rest, s.pend = b :: rest ∧ coreStep s = startStep b s) ∨
    (s.rst = false ∧ s.active = true ∧ s.rnd.val < 63 ∧
      coreStep s = { s with w := oneRound s.rnd s.x s.w, rnd := s.rnd + 1 }) ∨
    (s.rst = false ∧ s.active = true ∧ s.rnd = 63 ∧ coreStep s = endOfBlock { s with w := oneRound s.rnd s.x s.w }) := by
  unfold coreStep roundStep
  cases hr : s.rst with
  | true => simp
  | false =>
    cases ha : s.active with
    | true =>
      by_cases h : s.rnd.val < 63
      · simp [h]
      · have h63 : s.rnd = 63 := Fin.ext (by have := s.rnd.isLt; show s.rnd.val = 63; omega)
        simp [h63]
    | false =>
      cases hp : s.pend with
      | nil => simp [State.busy, ha, hp]
      | cons b rest => simp

end Sys2Proof.Machine
end

