-- ==== Sys2Proof/Laws/Padder.lean ====
section
/-! SUPPORT. Lengths and blocks of the padder and the splitter (41_padder_splitter), and what absorbing one byte does (R129). -/

namespace Sys2Proof.Machine

@[simp] theorem zeros_length (n : Nat) : (zeros n).length = n := by simp [zeros]

@[simp] theorem le64bytes_length (v : DWord) : (le64bytes v).length = 8 := by simp [le64bytes]

theorem padZeros_eq (n : Nat) : padZeros n = (119 - n % 64) % 64 := by
  unfold padZeros
  omega

@[simp] theorem padTail_length (buf : List Byte) (len : DWord) :
    (padTail buf len).length = buf.length + 1 + padZeros buf.length + 8 := by
  simp [padTail]; omega

/-- The splitter's precondition holds of every padded tail (41_padder_splitter R127). -/
theorem padTail_length_mod (buf : List Byte) (len : DWord) : (padTail buf len).length % 64 = 0 := by
  rw [padTail_length, padZeros_eq]
  omega

theorem blocksOf_length (n : Nat) (p : List Byte) : (blocksOf n p).length = n := by
  induction n generalizing p with
  | zero => rfl
  | succ n ih => simp [blocksOf, ih]

/-- The blocks FINISH queues. -/
def tailBlocks (buf : List Byte) (len : DWord) : List Block := blocksOf ((padTail buf len).length / 64) (padTail buf len)

theorem splitBlocks_padTail (buf : List Byte) (len : DWord) :
    splitBlocks (padTail buf len) = some (tailBlocks buf len) := by
  unfold splitBlocks
  rw [if_pos (padTail_length_mod buf len)]
  rfl

theorem tailBlocks_length (buf : List Byte) (len : DWord) (h : buf.length ≤ 63) :
    (tailBlocks buf len).length = if buf.length ≤ 55 then 1 else 2 := by
  rw [tailBlocks, blocksOf_length, padTail_length, padZeros_eq]
  split <;> omega

/-- FINISH never faults. -/
theorem acceptFinish_eq (s : State) : acceptFinish s = .next (queueTail (tailBlocks s.buf s.len) s) := by
  simp [acceptFinish, splitBlocks_padTail]

/-- Whatever the write, the effect of its command is a next state. -/
theorem acceptCommand_next (c : Command) (s : State) : ∃ t, acceptCommand c s = .next t := by
  cases c with
  | nop => exact ⟨_, rfl⟩
  | init => exact ⟨_, rfl⟩
  | absorb k => exact ⟨_, rfl⟩
  | finish => exact ⟨_, acceptFinish_eq s⟩

/-! ### Absorbing one byte -/

/-- A byte that does not complete the block. -/
theorem absorbByte_of_ne (s : State) (d : Byte) (h : s.buf.length ≠ 63) :
    absorbByte s d = { s with buf := s.buf ++ [d], len := s.len + 8 } := by
  simp [absorbByte, h]

/-- The byte that completes the block. -/
theorem absorbByte_of_eq (s : State) (d : Byte) (h : s.buf.length = 63) :
    absorbByte s d = { s with pend := s.pend ++ [blockOf (s.buf ++ [d])], buf := [], len := s.len + 8 } := by
  simp [absorbByte, h]

/-- What absorbing one byte leaves alone, whether or not it completes the block. -/
structure AbsorbFrame (s t : State) : Prop where
  h : t.h = s.h
  w : t.w = s.w
  x : t.x = s.x
  rnd : t.rnd = s.rnd
  active : t.active = s.active
  fin : t.fin = s.fin
  dataIn : t.dataIn = s.dataIn
  done : t.done = s.done
  err : t.err = s.err
  errcode : t.errcode = s.errcode
  rst : t.rst = s.rst
  program : t.program = s.program
  turns : t.turns = s.turns
  reads : t.reads = s.reads
  freeCount : t.freeCount = s.freeCount

theorem absorbByte_frame (s : State) (d : Byte) : AbsorbFrame s (absorbByte s d) := by
  unfold absorbByte
  split <;> constructor <;> rfl

theorem absorbAll_frame (m : List Byte) (s : State) : AbsorbFrame s (absorbAll m s) := by
  induction m generalizing s with
  | nil => constructor <;> rfl
  | cons d m ih =>
    have h1 := absorbByte_frame s d
    have h2 := ih (absorbByte s d)
    exact ⟨h2.h.trans h1.h, h2.w.trans h1.w, h2.x.trans h1.x, h2.rnd.trans h1.rnd, h2.active.trans h1.active,
      h2.fin.trans h1.fin, h2.dataIn.trans h1.dataIn, h2.done.trans h1.done, h2.err.trans h1.err,
      h2.errcode.trans h1.errcode, h2.rst.trans h1.rst, h2.program.trans h1.program, h2.turns.trans h1.turns,
      h2.reads.trans h1.reads, h2.freeCount.trans h1.freeCount⟩

theorem absorbByte_len (s : State) (d : Byte) : (absorbByte s d).len = s.len + 8 := by
  unfold absorbByte
  split <;> rfl

/-- CNT after one byte, from a partial block. -/
theorem absorbByte_bufLength (s : State) (d : Byte) (h : s.buf.length ≤ 63) :
    (absorbByte s d).buf.length = (s.buf.length + 1) % 64 := by
  by_cases h63 : s.buf.length = 63
  · simp [absorbByte_of_eq s d h63, h63]
  · simp [absorbByte_of_ne s d h63]; omega

theorem absorbByte_pendLength (s : State) (d : Byte) :
    (absorbByte s d).pend.length = s.pend.length + if s.buf.length = 63 then 1 else 0 := by
  by_cases h63 : s.buf.length = 63
  · simp [absorbByte_of_eq s d h63, h63]
  · simp [absorbByte_of_ne s d h63, h63]

/-- CNT after m bytes (41_padder_splitter R129, R130). -/
theorem absorbAll_bufLength (m : List Byte) (s : State) (h : s.buf.length ≤ 63) :
    (absorbAll m s).buf.length = (s.buf.length + m.length) % 64 := by
  induction m generalizing s with
  | nil => simp [absorbAll]; omega
  | cons d m ih =>
    have h1 := absorbByte_bufLength s d h
    have := ih (absorbByte s d) (by omega)
    simp only [absorbAll, List.foldl_cons] at this ⊢
    rw [this, h1, List.length_cons]
    omega

/-- How many blocks m bytes complete. -/
theorem absorbAll_pendLength (m : List Byte) (s : State) (h : s.buf.length ≤ 63) :
    (absorbAll m s).pend.length = s.pend.length + (s.buf.length + m.length) / 64 := by
  induction m generalizing s with
  | nil => simp [absorbAll]; omega
  | cons d m ih =>
    have h1 := absorbByte_bufLength s d h
    have h2 := absorbByte_pendLength s d
    have := ih (absorbByte s d) (by omega)
    simp only [absorbAll, List.foldl_cons] at this ⊢
    rw [this, h1, h2, List.length_cons]
    split <;> omega

theorem absorbAll_len (m : List Byte) (s : State) : (absorbAll m s).len = s.len + bitLength m := by
  induction m generalizing s with
  | nil => simp [absorbAll, bitLength]
  | cons d m ih =>
    have := ih (absorbByte s d)
    simp only [absorbAll, List.foldl_cons] at this ⊢
    rw [this, absorbByte_len]
    apply BitVec.eq_of_toNat_eq
    simp [bitLength, BitVec.toNat_add, BitVec.toNat_ofNat]
    omega

@[simp] theorem absorbBytes_length (k : BitVec 2) (v : Word) : (absorbBytes k v).length = k.toNat + 1 := by
  simp [absorbBytes, absorbCount]

theorem acceptAbsorb_eq (k : BitVec 2) (s : State) :
    acceptAbsorb k s = absorbAll (absorbBytes k s.dataIn) { s with done := false } := rfl

end Sys2Proof.Machine
end

