-- ==== Sys2Proof/Laws/Inv.lean ====
section
/-! SUPPORT. Every shared operation keeps the invariant of Safety.lean. A statement about every step cites these and unfolds nothing. -/

namespace Sys2Proof.Machine

/-- The invariant speaks of the core and the reset pin only. -/
theorem Inv_of_sameCore {s t : State} (hi : s.Inv) (hc : s.SameCore t) (hr : t.rst = s.rst) : t.Inv := by
  obtain ⟨⟨h, w, x, rnd, active, pend, buf, len, fin, dataIn, done⟩, err, errcode⟩ := hc
  constructor
  case inReset =>
    intro ht
    have hs := hi.inReset (hr ▸ ht)
    exact ⟨h ▸ hs.h, rnd ▸ hs.rnd, active ▸ hs.active, pend ▸ hs.pend, buf ▸ hs.buf, len ▸ hs.len, fin ▸ hs.fin,
      dataIn ▸ hs.dataIn, done ▸ hs.done, err ▸ hs.err, errcode ▸ hs.errcode⟩
  case bufLength => rw [buf]; exact hi.bufLength
  case pendLength => rw [pend]; exact hi.pendLength
  case twoBlocks => rw [pend, fin]; exact hi.twoBlocks
  case activePending => rw [active, pend]; exact hi.activePending
  case activeLatch => rw [active, pend, x]; exact hi.activeLatch
  case activeRounds => rw [active, w, x, h, rnd]; exact hi.activeRounds
  case idleRound => rw [active, rnd]; exact hi.idleRound
  case finPending => rw [fin, pend]; exact hi.finPending
  case finMessage => rw [fin, buf, len]; exact hi.finMessage
  case doneIdle => rw [done, pend, fin, buf, len]; exact hi.doneIdle
  case lenCnt => rw [len, buf]; exact hi.lenCnt
  case noError => rw [err, errcode]; exact hi.noError
  case someError => rw [err, errcode]; exact hi.someError

theorem SameCore_turns (s : State) (ts : List Turn) : s.SameCore { s with turns := ts } := by
  refine ⟨⟨?_, ?_, ?_, ?_, ?_, ?_, ?_, ?_, ?_, ?_, ?_⟩, ?_, ?_⟩ <;> rfl

theorem SameCore_program (s : State) (p : List HostOp) : s.SameCore { s with program := p } := by
  refine ⟨⟨?_, ?_, ?_, ?_, ?_, ?_, ?_, ?_, ?_, ?_, ?_⟩, ?_, ?_⟩ <;> rfl

theorem SameCore_returnValue (s : State) (v : Word) : s.SameCore (returnValue v s) := by
  refine ⟨⟨?_, ?_, ?_, ?_, ?_, ?_, ?_, ?_, ?_, ?_, ?_⟩, ?_, ?_⟩ <;> rfl

theorem SameCore_freeDigestRead (s : State) : s.SameCore (freeDigestRead s) := by
  refine ⟨⟨?_, ?_, ?_, ?_, ?_, ?_, ?_, ?_, ?_, ?_, ?_⟩, ?_, ?_⟩ <;> rfl

/-- Raising one of the three recorded errors (60_exceptions R212). -/
theorem Inv_raiseError {e : ErrorCode} {s : State} (hi : s.Inv) (hr : s.rst = false)
    (he : e = .busy ∨ e = .address ∨ e = .illegal) : (raiseError e s).Inv := by
  constructor
  case someError => rcases he with rfl | rfl | rfl <;> simp [errorNumber]
  case noError => simp
  case inReset => simp [hr]
  all_goals simp only [raiseError_buf, raiseError_pend, raiseError_fin, raiseError_active, raiseError_x, raiseError_w,
    raiseError_h, raiseError_rnd, raiseError_len, raiseError_done]
  exacts [hi.bufLength, hi.pendLength, hi.twoBlocks, hi.activePending, hi.activeLatch, hi.activeRounds, hi.idleRound,
    hi.finPending, hi.finMessage, hi.doneIdle, hi.lenCnt]

/-- A core at rest: what an accepted command finds (60_exceptions R213). -/
theorem Inv_atRest {s : State} (hi : s.Inv) (hb : s.busy = false) :
    s.active = false ∧ s.pend = [] ∧ s.rnd = 0 ∧ s.fin = false := by
  obtain ⟨ha, hp⟩ := (busy_eq_false_iff s).1 hb
  refine ⟨ha, hp, hi.idleRound ha, ?_⟩
  cases hf : s.fin with
  | false => rfl
  | true => exact absurd hp (hi.finPending hf)

theorem Inv_acceptInit {s : State} (hi : s.Inv) (hr : s.rst = false) (hb : s.busy = false) : (acceptInit s).Inv := by
  obtain ⟨ha, hp, h0, -⟩ := Inv_atRest hi hb
  constructor <;> simp [ha, hp, h0, hr]

theorem Inv_storeDataIn {s : State} (v : Word) (hi : s.Inv) (hr : s.rst = false) : (storeDataIn v s).Inv := by
  constructor
  case inReset => simp [hr]
  all_goals simp only [storeDataIn_buf, storeDataIn_pend, storeDataIn_fin, storeDataIn_active, storeDataIn_x, storeDataIn_w,
    storeDataIn_h, storeDataIn_rnd, storeDataIn_len, storeDataIn_done, storeDataIn_err, storeDataIn_errcode]
  exacts [hi.bufLength, hi.pendLength, hi.twoBlocks, hi.activePending, hi.activeLatch, hi.activeRounds, hi.idleRound,
    hi.finPending, hi.finMessage, hi.doneIdle, hi.lenCnt, hi.noError, hi.someError]

theorem Inv_acceptAbsorb {s : State} (k : BitVec 2) (hi : s.Inv) (hr : s.rst = false) (hb : s.busy = false) :
    (acceptAbsorb k s).Inv := by
  obtain ⟨ha, hp, h0, hf⟩ := Inv_atRest hi hb
  have hbuf : ({ s with done := false } : State).buf.length ≤ 63 := hi.bufLength
  have fr := absorbAll_frame (absorbBytes k s.dataIn) { s with done := false }
  have hB := absorbAll_bufLength (absorbBytes k s.dataIn) _ hbuf
  have hP := absorbAll_pendLength (absorbBytes k s.dataIn) _ hbuf
  have hL := absorbAll_len (absorbBytes k s.dataIn) { s with done := false }
  rw [← acceptAbsorb_eq] at fr hB hP hL
  have hk := k.isLt
  have hc := hi.lenCnt
  simp only [absorbBytes_length, hp, List.length_nil] at hB hP
  have hi63 := hi.bufLength
  have active := fr.active
  have fin := fr.fin
  have done := fr.done
  simp only [ha, hf] at active fin done
  constructor
  case bufLength => omega
  case pendLength => omega
  case twoBlocks => intro h; omega
  case activePending => simp [active]
  case activeLatch => simp [active]
  case activeRounds => simp [active]
  case idleRound => intro _; rw [fr.rnd]; exact h0
  case finPending => simp [fin]
  case finMessage => simp [fin]
  case doneIdle => simp [done]
  case lenCnt =>
    rw [hL, hB]
    simp only [bitLength, absorbBytes_length, BitVec.toNat_add, BitVec.toNat_ofNat]
    omega
  case noError => rw [fr.err, fr.errcode]; exact hi.noError
  case someError => rw [fr.err, fr.errcode]; exact hi.someError
  case inReset => rw [fr.rst]; simp [hr]

theorem Inv_acceptFinish {s t : State} (hi : s.Inv) (hr : s.rst = false) (hb : s.busy = false)
    (h : acceptFinish s = .next t) : t.Inv := by
  obtain ⟨ha, hp, h0, hf⟩ := Inv_atRest hi hb
  rw [acceptFinish_eq] at h
  obtain rfl : queueTail (tailBlocks s.buf s.len) s = t := by injection h
  have hl := tailBlocks_length s.buf s.len hi.bufLength
  have hne : tailBlocks s.buf s.len ≠ [] := fun hn => by
    rw [hn] at hl
    simp only [List.length_nil] at hl
    split at hl <;> omega
  constructor <;> simp [ha, h0, hr]
  case pendLength => rw [hl]; split <;> omega
  case finPending => exact hne
  case noError => exact hi.noError
  case someError => exact hi.someError

theorem Inv_acceptCommand {s t : State} (c : Command) (hi : s.Inv) (hr : s.rst = false) (hb : s.busy = false)
    (h : acceptCommand c s = .next t) : t.Inv := by
  cases c with
  | nop => injection h with h; exact h ▸ hi
  | init => injection h with h; exact h ▸ Inv_acceptInit hi hr hb
  | absorb k => injection h with h; exact h ▸ Inv_acceptAbsorb k hi hr hb
  | finish => exact Inv_acceptFinish hi hr hb h

theorem Inv_acceptWord {s t : State} (v : Word) (hi : s.Inv) (hr : s.rst = false) (hb : s.busy = false)
    (h : acceptWord v s = .next t) : t.Inv := by
  unfold acceptWord at h
  split at h
  · exact Inv_acceptCommand _ hi hr hb h
  · injection h with h; exact h ▸ hi

/-- A bus write keeps the invariant if its effect does, out of reset and with BUSY = 0. -/
theorem Inv_busWrite {off : Offset} {size : Nat} {v : Word} {effect : State → Result} {s t : State} (hi : s.Inv)
    (he : s.rst = false → s.busy = false → ∀ u, effect s = .next u → u.Inv)
    (h : busWrite off size v effect s = .next t) : t.Inv := by
  rcases busWrite_cases off size v effect s with ⟨-, h'⟩ | ⟨e, hc, h'⟩ | ⟨hc, h'⟩
  · rw [h'] at h
    injection h with h
    exact h ▸ hi
  · rw [h'] at h
    injection h with h
    obtain ⟨hr, -, hcode⟩ := checkWrite_reject hc
    exact h ▸ Inv_raiseError hi hr hcode
  · rw [h'] at h
    obtain ⟨hr, hb, -⟩ := checkWrite_perform hc
    exact he hr hb t h

theorem Inv_applyReset (level : Bool) (s : State) : (applyReset level s).Inv := by
  constructor
  case inReset => intro _; constructor <;> rfl
  all_goals simp [State.reset]

/-! ### The core's steps -/

theorem Inv_startStep {s : State} {b : Block} {rest : List Block} (hi : s.Inv) (hr : s.rst = false)
    (hp : s.pend = b :: rest) : (startStep b s).Inv := by
  have hd : s.done = false := by
    cases hd : s.done with
    | false => rfl
    | true => have := (hi.doneIdle hd).1; simp [hp] at this
  constructor
  case activeLatch => simp [hp]
  case activeRounds => simp [firstRounds]
  case activePending => simp [hp]
  case idleRound => simp
  case doneIdle => simp [hd]
  case inReset => simp [hr]
  all_goals simp only [startStep_buf, startStep_pend, startStep_fin, startStep_len, startStep_err, startStep_errcode]
  exacts [hi.bufLength, hi.pendLength, hi.twoBlocks, hi.finPending, hi.finMessage, hi.lenCnt, hi.noError, hi.someError]

theorem Inv_roundStep {s : State} (hi : s.Inv) (hr : s.rst = false) (ha : s.active = true) (h63 : s.rnd.val < 63) :
    ({ s with w := oneRound s.rnd s.x s.w, rnd := s.rnd + 1 } : State).Inv := by
  have hn : (s.rnd + 1 : Fin 64).val = s.rnd.val + 1 := by
    rw [Fin.val_add]
    show (s.rnd.val + 1) % 64 = _
    omega
  have hf : Fin.ofNat 64 s.rnd.val = s.rnd := by
    apply Fin.ext
    simp
  constructor
  case activeRounds =>
    intro _
    show oneRound s.rnd s.x s.w = firstRounds s.x s.h (s.rnd + 1 : Fin 64).val
    rw [hn, firstRounds, hf, ← hi.activeRounds ha]
  case idleRound => intro h; exact absurd ha (by simpa using h)
  case inReset => intro h; exact absurd h (by simp [hr])
  exacts [hi.bufLength, hi.pendLength, hi.twoBlocks, hi.activePending, hi.activeLatch, hi.finPending, hi.finMessage,
    hi.doneIdle, hi.lenCnt, hi.noError, hi.someError]

theorem Inv_endOfBlock {s : State} (w : Quad) (hi : s.Inv) (hr : s.rst = false) (ha : s.active = true) :
    (endOfBlock { s with w := w }).Inv := by
  have hne := hi.activePending ha
  have h2 := hi.pendLength
  have hd : s.done = false := by
    cases hd : s.done with
    | false => rfl
    | true => exact absurd (hi.doneIdle hd).1 hne
  have ht : s.pend.tail.length ≤ 1 := by simp only [List.length_tail]; omega
  have hfm : finishesMessage { s with w := w } = (s.pend.tail.isEmpty && s.fin) := rfl
  constructor
  case pendLength => simp only [endOfBlock_pend]; omega
  case twoBlocks => simp only [endOfBlock_pend]; omega
  case finPending => simp only [endOfBlock_pend, endOfBlock_fin, hfm]; cases s.fin <;> simp
  case finMessage =>
    intro h
    have : s.fin = true := by simp only [endOfBlock_fin] at h; simp at h; exact h.2
    exact hi.finMessage this
  case doneIdle =>
    intro h
    rw [endOfBlock_done, hfm] at h
    obtain ⟨htail, hfin⟩ : s.pend.tail = [] ∧ s.fin = true := by simpa [hd] using h
    refine ⟨htail, ?_, hi.finMessage hfin⟩
    rw [endOfBlock_fin, hfm]
    simp [htail]
  case inReset => simp [hr]
  case bufLength => exact hi.bufLength
  case lenCnt => exact hi.lenCnt
  case noError => exact hi.noError
  case someError => exact hi.someError
  all_goals simp

theorem Inv_coreStep {s : State} (hi : s.Inv) : (coreStep s).Inv := by
  rcases coreStep_cases s with ⟨h, -⟩ | ⟨hr, -, b, rest, hp, h⟩ | ⟨hr, ha, h63, h⟩ | ⟨hr, ha, -, h⟩
  · rw [h]; exact hi
  · rw [h]; exact Inv_startStep hi hr hp
  · rw [h]; exact Inv_roundStep hi hr ha h63
  · rw [h]; exact Inv_endOfBlock _ hi hr ha

end Sys2Proof.Machine
end

