-- ==== Sys2Proof/Laws/PerInstr.lean ====
section
/-! SUPPORT. Facts about the instructions as terms, one lemma for each constructor. -/

/-- Every instruction is an access at an aligned offset, and it is a write exactly when it is no row of format BUS_READ (30_encoding R90, 20_memory R51). -/
def Sys2Proof.Laws.EncodeAligned.Statement (i : Sys2Proof.Instr) : Prop :=
  (Sys2Proof.encode i).off.toNat % 4 = 0 ∧ (Sys2Proof.encode i).write = !Sys2Proof.Machine.isRead i

namespace Sys2Proof.Laws.EncodeAligned

theorem nop : Statement .nop := by simp [Statement, encode, memWrite, offCmd, Machine.isRead]
theorem init : Statement .init := by simp [Statement, encode, memWrite, offCmd, Machine.isRead]
theorem absorb (cntm1 : BitVec 2) : Statement (.absorb cntm1) := by simp [Statement, encode, memWrite, offCmd, Machine.isRead]
theorem finish : Statement .finish := by simp [Statement, encode, memWrite, offCmd, Machine.isRead]
theorem wrCmd (size : Nat) (v : Word) : Statement (.wrCmd size v) := by simp [Statement, encode, memWrite, offCmd, Machine.isRead]
theorem wrDataIn (size : Nat) (v : Word) : Statement (.wrDataIn size v) := by simp [Statement, encode, memWrite, offDataIn, Machine.isRead]
theorem rdCmd (size : Nat) : Statement (.rdCmd size) := by simp [Statement, encode, memRead, Machine.isRead]
theorem rdStatus (size : Nat) : Statement (.rdStatus size) := by simp [Statement, encode, memRead, Machine.isRead]
theorem rdDataIn (size : Nat) : Statement (.rdDataIn size) := by simp [Statement, encode, memRead, Machine.isRead]
theorem rdDigest0 (size : Nat) : Statement (.rdDigest0 size) := by simp [Statement, encode, memRead, Machine.isRead]
theorem rdDigest1 (size : Nat) : Statement (.rdDigest1 size) := by simp [Statement, encode, memRead, Machine.isRead]
theorem rdDigest2 (size : Nat) : Statement (.rdDigest2 size) := by simp [Statement, encode, memRead, Machine.isRead]
theorem rdDigest3 (size : Nat) : Statement (.rdDigest3 size) := by simp [Statement, encode, memRead, Machine.isRead]
theorem rdLenLo (size : Nat) : Statement (.rdLenLo size) := by simp [Statement, encode, memRead, Machine.isRead]
theorem rdLenHi (size : Nat) : Statement (.rdLenHi size) := by simp [Statement, encode, memRead, Machine.isRead]
theorem rdId (size : Nat) : Statement (.rdId size) := by simp [Statement, encode, memRead, Machine.isRead]
theorem rdReserved0C (size : Nat) : Statement (.rdReserved0C size) := by simp [Statement, encode, memRead, Machine.isRead]
theorem rdReserved28 (size : Nat) : Statement (.rdReserved28 size) := by simp [Statement, encode, memRead, Machine.isRead]
theorem rdReserved30 (size : Nat) : Statement (.rdReserved30 size) := by simp [Statement, encode, memRead, Machine.isRead]
theorem rdReserved34 (size : Nat) : Statement (.rdReserved34 size) := by simp [Statement, encode, memRead, Machine.isRead]
theorem rdReserved38 (size : Nat) : Statement (.rdReserved38 size) := by simp [Statement, encode, memRead, Machine.isRead]
theorem rdReserved3C (size : Nat) : Statement (.rdReserved3C size) := by simp [Statement, encode, memRead, Machine.isRead]

end Sys2Proof.Laws.EncodeAligned
end

