-- ==== Sys2Proof/Laws/Access.lean ====
section
/-! SUPPORT. What a bus transaction, a WAIT and the host's move can do, said once, and the inversion of a step. A statement about every transaction or every step cites these and unfolds nothing. -/

namespace Sys2Proof.Machine

/-! ### Command words -/

theorem rsvdField_toNat (v : Word) : (rsvdField v).toNat = v.toNat / 64 := by
  simp only [rsvdField, BitVec.extractLsb'_toNat, Nat.shiftRight_eq_div_pow]
  have := v.isLt
  omega

/-- A property of the 64 words whose reserved field is 0. -/
theorem forall_word_of_rsvdField {P : Word → Prop} (h : ∀ n : Fin 64, P (BitVec.ofNat 32 n.val)) (v : Word)
    (hv : rsvdField v = 0) : P v := by
  have h1 := rsvdField_toNat v
  rw [hv] at h1
  have := h ⟨v.toNat, by simp at h1; omega⟩
  simpa using this

/-- A word is legal and is the word of the command it decodes to, or it is illegal and the decoder refuses it (30_encoding R82, R85). -/
theorem decodeCommand_cases (v : Word) :
    (legalCommand v = true ∧ ∃ c, decodeCommand v = .ok c ∧ encodeCommand c = v) ∨
    (legalCommand v = false ∧ ∃ e, decodeCommand v = .error e) := by
  by_cases h : rsvdField v = 0
  · refine forall_word_of_rsvdField (P := fun v =>
      (legalCommand v = true ∧ ∃ c, decodeCommand v = .ok c ∧ encodeCommand c = v) ∨
      (legalCommand v = false ∧ ∃ e, decodeCommand v = .error e)) ?_ v h
    intro n
    fin_cases n
    all_goals first
      | exact .inr ⟨by decide, _, rfl⟩
      | exact .inl ⟨by decide, _, rfl, by decide⟩
  · exact .inr ⟨decide_eq_false fun hc => h hc.1, _, by unfold decodeCommand; rw [if_neg h]⟩

theorem encodeCommand_inj {c d : Command} (h : encodeCommand c = encodeCommand d) : c = d := by
  have h1 := decodeCommand_encodeCommand c
  rw [h, decodeCommand_encodeCommand] at h1
  injection h1 with h1
  exact h1.symm

theorem acceptWord_encodeCommand (c : Command) : acceptWord (encodeCommand c) = acceptCommand c := by
  funext t
  simp [acceptWord, decodeCommand_encodeCommand]

/-- A command's own row is the write of its word (30_encoding R88). -/
theorem exec_toInstr (c : Command) (s : State) : exec c.toInstr s = commandWrite c s := by cases c <;> rfl

theorem decode_command (c : Command) : decode (memWrite offCmd 4 (encodeCommand c)) = .ok c.toInstr := by
  cases c with
  | absorb k => revert k; decide
  | _ => rfl

/-- Where a command is accepted, its row is its effect: BUSY = 0, and no error recorded unless it is INIT (60_exceptions R217). -/
theorem exec_toInstr_of_accepted (c : Command) {s : State} (hr : s.rst = false) (hb : s.busy = false)
    (he : s.err = true → c = .init) : exec c.toInstr s = acceptCommand c s := by
  rw [exec_toInstr, commandWrite, busWrite_of_perform]
  cases h : s.err with
  | true => rw [checkWrite_of_err _ _ _ hr h, if_pos ((isRecovery_iff _ _ _ _).2 ⟨rfl, rfl, by rw [he h], hb⟩)]
  | false =>
    rw [checkWrite_of_ready _ _ _ ((ready_iff s).2 ⟨hr, hb, h⟩)]
    simp [legalCommand_encodeCommand, (badAddress_eq_false_iff offCmd 4).2 ⟨rfl, .inl rfl⟩]

/-! ### A write transaction -/

theorem memWrite_eta {r : Request} (h : r.write = true) : r = memWrite r.off r.size r.wdata := by
  cases r
  simp_all [memWrite]

theorem memWrite_inj {o p : Offset} {m n : Nat} {v w : Word} (h : memWrite o m v = memWrite p n w) : o = p ∧ m = n ∧ v = w := by
  simpa [memWrite] using h

/-- Whatever row a write decodes to, and if it is of no row, it is one bus write. -/
theorem runRequest_memWrite (off : Offset) (size : Nat) (v : Word) (s : State) :
    runRequest (memWrite off size v) s =
      busWrite off size v (fun t => if off = offCmd then acceptWord v t else .next (storeDataIn v t)) s := by
  unfold runRequest
  simp only [decode, memWrite, decodeWrite]
  by_cases h0 : off = offCmd
  · subst h0
    simp only [if_true, decodeCmdWrite]
    by_cases h4 : size = 4
    · subst h4
      rcases decodeCommand_cases v with ⟨-, c, hc, rfl⟩ | ⟨-, e, he⟩
      · simp only [hc, if_true, exec_toInstr, commandWrite, acceptWord_encodeCommand]
      · simp only [he, if_true]; rfl
    · simp only [h4, if_false]; rfl
  · simp only [h0, if_false]
    by_cases h8 : off = offDataIn
    · subst h8; simp only [if_true]; rfl
    · simp only [h8, if_false, rejectedAccess]
      have hbad : badAddress off size = true := by
        by_contra hc
        have := (badAddress_eq_false_iff off size).1 (by simpa using hc)
        tauto
      rcases busWrite_cases off size v (fun t => .next t) s with ⟨hc, h⟩ | ⟨e, hc, h⟩ | ⟨hc, -⟩
      · simp [h, busWrite_of_ignore hc]
      · simp [h, busWrite_of_reject hc]
      · exact absurd hc (checkWrite_ne_perform_of_bad hbad)

/-- A row that is no read is the transaction it encodes to. -/
theorem exec_write (i : Instr) (s : State) (h : isRead i = false) : exec i s = runRequest (encode i) s := by
  have command : ∀ c : Command, exec c.toInstr s = runRequest (memWrite offCmd 4 (encodeCommand c)) s := fun c => by
    rw [exec_toInstr, runRequest_memWrite, commandWrite]
    simp only [if_true, acceptWord_encodeCommand]
  cases i with
  | nop => exact command .nop
  | init => exact command .init
  | absorb k => exact command (.absorb k)
  | finish => exact command .finish
  | wrCmd n v => show _ = runRequest (memWrite offCmd n v) s; rw [runRequest_memWrite]; rfl
  | wrDataIn n v => rfl
  | _ => simp [isRead] at h

/-- What a performed write is: the acceptance of a command, or a DATA_IN write. -/
theorem performed_cases {off : Offset} {size : Nat} {v : Word} {s t : State} (hc : checkWrite off size v s = .perform)
    (h : runRequest (memWrite off size v) s = .next t) :
    (off = offCmd ∧ size = 4 ∧ ∃ c, v = encodeCommand c ∧ acceptCommand c s = .next t) ∨
    (off = offDataIn ∧ size = 4 ∧ t = storeDataIn v s) := by
  rw [runRequest_memWrite, busWrite_of_perform hc] at h
  have hp := checkWrite_perform hc
  obtain ⟨h4, ho | ho⟩ := (badAddress_eq_false_iff off size).1 hp.2.2.1
  · rw [if_pos ho] at h
    rcases decodeCommand_cases v with ⟨-, c, -, rfl⟩ | ⟨hl, -⟩
    · exact .inl ⟨ho, h4, c, rfl, by rwa [acceptWord_encodeCommand] at h⟩
    · simp [hl, ho] at hp
  · rw [if_neg (by rw [ho]; decide)] at h
    injection h with h
    exact .inr ⟨ho, h4, h.symm⟩

/-! ### The acceptance of a command -/

/-- What no command touches. -/
structure CommandFrame (s t : State) : Prop where
  w : t.w = s.w
  x : t.x = s.x
  rnd : t.rnd = s.rnd
  active : t.active = s.active
  dataIn : t.dataIn = s.dataIn
  rst : t.rst = s.rst
  program : t.program = s.program
  turns : t.turns = s.turns
  reads : t.reads = s.reads
  freeCount : t.freeCount = s.freeCount

theorem acceptCommand_frame {c : Command} {s t : State} (h : acceptCommand c s = .next t) : CommandFrame s t := by
  cases c with
  | nop => injection h with h; subst h; constructor <;> rfl
  | init => injection h with h; subst h; constructor <;> rfl
  | absorb k =>
    injection h with h
    subst h
    have f := absorbAll_frame (absorbBytes k s.dataIn) { s with done := false }
    exact ⟨f.w, f.x, f.rnd, f.active, f.dataIn, f.rst, f.program, f.turns, f.reads, f.freeCount⟩
  | finish =>
    have h : acceptFinish s = .next t := h
    rw [acceptFinish_eq] at h
    injection h with h
    subst h
    constructor <;> rfl

/-- INIT alone writes H, and INIT alone clears the error record. -/
theorem acceptCommand_init_or {c : Command} {s t : State} (h : acceptCommand c s = .next t) :
    (c = .init ∧ t.h = iv ∧ t.err = false ∧ t.errcode = 0) ∨ (c ≠ .init ∧ t.h = s.h ∧ t.err = s.err ∧ t.errcode = s.errcode) := by
  cases c with
  | nop => injection h with h; subst h; exact .inr ⟨by simp, rfl, rfl, rfl⟩
  | init => injection h with h; subst h; exact .inl ⟨rfl, rfl, rfl, rfl⟩
  | absorb k =>
    injection h with h
    subst h
    have f := absorbAll_frame (absorbBytes k s.dataIn) { s with done := false }
    exact .inr ⟨by simp, f.h, f.err, f.errcode⟩
  | finish =>
    have h : acceptFinish s = .next t := h
    rw [acceptFinish_eq] at h
    injection h with h
    subst h
    exact .inr ⟨by simp, rfl, rfl, rfl⟩

/-! ### A read transaction -/

/-- Every read is one of the two shared read operations, of a value that only the core's state decides. -/
theorem exec_read_cases (i : Instr) (s : State) (h : isRead i = true) :
    (∃ n v, (encode i).size = n ∧ isDigestRead i = false ∧ ∀ t, s.SameCore t → exec i t = busRead n v t) ∨
    (∃ n v, (encode i).size = n ∧ isDigestRead i = true ∧ ∀ t, s.SameCore t → exec i t = digestRead n v t) := by
  cases i with
  | rdCmd n => exact .inl ⟨n, 0, rfl, rfl, fun _ _ => rfl⟩
  | rdStatus n => exact .inl ⟨n, s.statusWord, rfl, rfl, fun t ht => by
      simp only [exec, execRdStatus, State.statusWord, State.cnt, State.busy, ht.err, ht.errcode, ht.done, ht.active, ht.pend, ht.buf]⟩
  | rdDataIn n => exact .inl ⟨n, s.dataIn, rfl, rfl, fun t ht => by simp only [exec, execRdDataIn, ht.dataIn]⟩
  | rdDigest0 n => exact .inr ⟨n, s.h.a, rfl, rfl, fun t ht => by simp only [exec, execRdDigest0, ht.h]⟩
  | rdDigest1 n => exact .inr ⟨n, s.h.b, rfl, rfl, fun t ht => by simp only [exec, execRdDigest1, ht.h]⟩
  | rdDigest2 n => exact .inr ⟨n, s.h.c, rfl, rfl, fun t ht => by simp only [exec, execRdDigest2, ht.h]⟩
  | rdDigest3 n => exact .inr ⟨n, s.h.d, rfl, rfl, fun t ht => by simp only [exec, execRdDigest3, ht.h]⟩
  | rdLenLo n => exact .inl ⟨n, lenLo s.len, rfl, rfl, fun t ht => by simp only [exec, execRdLenLo, ht.len]⟩
  | rdLenHi n => exact .inl ⟨n, lenHi s.len, rfl, rfl, fun t ht => by simp only [exec, execRdLenHi, ht.len]⟩
  | rdId n => exact .inl ⟨n, idValue, rfl, rfl, fun _ _ => rfl⟩
  | rdReserved0C n => exact .inl ⟨n, 0, rfl, rfl, fun _ _ => rfl⟩
  | rdReserved28 n => exact .inl ⟨n, 0, rfl, rfl, fun _ _ => rfl⟩
  | rdReserved30 n => exact .inl ⟨n, 0, rfl, rfl, fun _ _ => rfl⟩
  | rdReserved34 n => exact .inl ⟨n, 0, rfl, rfl, fun _ _ => rfl⟩
  | rdReserved38 n => exact .inl ⟨n, 0, rfl, rfl, fun _ _ => rfl⟩
  | rdReserved3C n => exact .inl ⟨n, 0, rfl, rfl, fun _ _ => rfl⟩
  | _ => simp [isRead] at h

theorem SameCore_refl (s : State) : s.SameCore s := SameCore_turns s s.turns

/-- A read completes, and leaves the core and the host's side as they were. -/
theorem exec_read_next (i : Instr) (s : State) (h : isRead i = true) :
    ∃ t, exec i s = .next t ∧ s.SameCore t ∧ s.SameHost t := by
  rcases exec_read_cases i s h with ⟨n, v, -, -, hx⟩ | ⟨n, v, -, -, hx⟩
  · exact ⟨_, hx s (SameCore_refl s), SameCore_returnValue _ _, ⟨rfl, rfl, rfl⟩⟩
  · rw [hx s (SameCore_refl s)]
    rcases digestRead_cases n v s with ⟨-, hd⟩ | ⟨-, -, hd⟩ | ⟨-, -, hd⟩
    · exact ⟨_, hd, SameCore_returnValue _ _, ⟨rfl, rfl, rfl⟩⟩
    · exact ⟨_, hd, SameCore_freeDigestRead _, ⟨rfl, rfl, rfl⟩⟩
    · exact ⟨_, hd, SameCore_returnValue _ _, ⟨rfl, rfl, rfl⟩⟩

/-- A read decodes to a row of format BUS_READ, or its offset is misaligned and it returns 0 (20_memory R51). -/
theorem runRequest_read (r : Request) (h : r.write = false) (s : State) :
    (∃ i, decode r = .ok i ∧ isRead i = true ∧ runRequest r s = exec i s) ∨
    (r.off.toNat % 4 ≠ 0 ∧ runRequest r s = .next (returnValue 0 s)) := by
  have key : ∀ o : Fin 64, ∀ n, (∃ i, decodeRead (BitVec.ofFin o) n = .ok i ∧ isRead i = true) ∨
      (o.val % 4 ≠ 0 ∧ decodeRead (BitVec.ofFin o) n = .error .misalignedRead) := fun o n => by
    fin_cases o
    all_goals first
      | exact .inl ⟨_, rfl, rfl⟩
      | exact .inr ⟨by decide, rfl⟩
  rcases key r.off.toFin r.size with ⟨i, hd, hi⟩ | ⟨hm, hd⟩
  · have hd : decode r = .ok i := by simp only [decode, h]; exact hd
    exact .inl ⟨i, hd, hi, by simp [runRequest, hd]⟩
  · have hd : decode r = .error .misalignedRead := by simp only [decode, h]; exact hd
    exact .inr ⟨hm, by simp [runRequest, hd, rejectedAccess, h]⟩

/-! ### The host's move -/

/-- Everything a bus transaction can do: nothing to the core (a read, an ignored write), an error, the acceptance of a command, a DATA_IN write. -/
theorem runRequest_cases (r : Request) (s : State) :
    (∃ t, runRequest r s = .next t ∧ s.SameCore t ∧ s.SameHost t) ∨
    (∃ e, r.write = true ∧ s.err = false ∧ s.rst = false ∧ (e = ErrorCode.busy ∨ e = .address ∨ e = .illegal) ∧
      runRequest r s = .next (raiseError e s)) ∨
    (s.rst = false ∧ s.busy = false ∧ ∃ c t, r = memWrite offCmd 4 (encodeCommand c) ∧ (s.err = true → c = .init) ∧
      acceptCommand c s = .next t ∧ runRequest r s = .next t) ∨
    (s.rst = false ∧ s.busy = false ∧ s.err = false ∧ ∃ v, r = memWrite offDataIn 4 v ∧
      runRequest r s = .next (storeDataIn v s)) := by
  cases hw : r.write with
  | false =>
    left
    rcases runRequest_read r hw s with ⟨i, -, hi, hx⟩ | ⟨-, hx⟩
    · obtain ⟨t, h, hc, hh⟩ := exec_read_next i s hi
      exact ⟨t, hx.trans h, hc, hh⟩
    · exact ⟨_, hx, SameCore_returnValue _ _, ⟨rfl, rfl, rfl⟩⟩
  | true =>
    rw [memWrite_eta hw]
    cases hc : checkWrite r.off r.size r.wdata s with
    | ignore => exact .inl ⟨s, by rw [runRequest_memWrite, busWrite_of_ignore hc], SameCore_refl s, ⟨rfl, rfl, rfl⟩⟩
    | reject e =>
      obtain ⟨h1, h2, h3⟩ := checkWrite_reject hc
      exact .inr (.inl ⟨e, rfl, h2, h1, h3, by rw [runRequest_memWrite, busWrite_of_reject hc]⟩)
    | perform =>
      obtain ⟨h1, h2, -, -, h5⟩ := checkWrite_perform hc
      obtain ⟨t, ht⟩ : ∃ t, runRequest (memWrite r.off r.size r.wdata) s = .next t := by
        rw [runRequest_memWrite, busWrite_of_perform hc]
        split
        · unfold acceptWord
          split
          · exact acceptCommand_next _ _
          · exact ⟨_, rfl⟩
        · exact ⟨_, rfl⟩
      rcases performed_cases hc ht with ⟨ho, hn, c, hv, ha⟩ | ⟨ho, hn, hv⟩
      · refine .inr (.inr (.inl ⟨h1, h2, c, t, by rw [ho, hn, hv], fun he => ?_, ha, ht⟩))
        have := (h5 he).2
        rw [hv] at this
        exact encodeCommand_inj this
      · refine .inr (.inr (.inr ⟨h1, h2, ?_, r.wdata, by rw [ho, hn], by rw [ht, hv]⟩))
        by_contra he
        have := (h5 (by simpa using he)).1
        rw [ho] at this
        exact absurd this (by decide)

/-- A WAIT reads, and leaves the core as it was (30_encoding R89). -/
theorem waitMove_next (rest : List HostOp) (s : State) :
    ∃ t, waitMove rest s = .next t ∧ s.SameCore t ∧ t.rst = s.rst := by
  obtain ⟨v, hv⟩ : ∃ v, exec (.rdStatus 4) { s with program := rest } = .next (returnValue v { s with program := rest }) := ⟨_, rfl⟩
  unfold waitMove
  rw [hv]
  show ∃ t, Host.Outcome.next (if lastReadOdd (returnValue v { s with program := rest }) then _ else _) = _ ∧ _
  cases lastReadOdd (returnValue v { s with program := rest }) <;>
    exact ⟨_, rfl, by constructor <;> (try constructor) <;> rfl, rfl⟩

/-- Everything the host's move can do. -/
theorem hostMove_cases (s : State) :
    (∃ t, hostMove s = .next t ∧ s.SameCore t ∧ t.rst = s.rst) ∨
    (∃ r rest, s.program = .access r :: rest ∧ hostMove s = runRequest r { s with program := rest }) := by
  unfold hostMove
  cases hp : s.program with
  | nil => exact .inl ⟨s, rfl, SameCore_refl s, rfl⟩
  | cons o rest =>
    cases o with
    | wait => exact .inl (waitMove_next rest s)
    | access r => exact .inr ⟨r, rest, rfl, rfl⟩

/-- What a step that answered a next state did, whoever moved. -/
theorem step_inversion {s t : State} (h : step s = .next t) :
    (nextTurn s = .host ∧ s.SameCore t ∧ t.rst = s.rst) ∨
    (nextTurn s = .host ∧ s.err = false ∧ s.rst = false ∧ s.SameButError t ∧ t.rst = s.rst ∧ t.err = true ∧
      ∃ e, (e = ErrorCode.busy ∨ e = .address ∨ e = .illegal) ∧ t.errcode = errorNumber e) ∨
    (s.rst = false ∧ s.busy = false ∧ ∃ c p, s.nextRequest = some (memWrite offCmd 4 (encodeCommand c)) ∧
      (s.err = true → c = .init) ∧ acceptCommand c { s with turns := s.turns.tail, program := p } = .next t) ∨
    (nextTurn s = .host ∧ s.rst = false ∧ s.busy = false ∧ s.err = false ∧ ∃ v p,
      s.nextRequest = some (memWrite offDataIn 4 v) ∧ t = { s with turns := s.turns.tail, program := p, dataIn := v }) ∨
    (nextTurn s = .core ∧ t = coreStep { s with turns := s.turns.tail }) ∨
    (s.movesReset = true ∧ ∃ level, t = applyReset level { s with turns := s.turns.tail }) := by
  rcases step_cases s with ⟨hn, h'⟩ | ⟨hn, h'⟩ | ⟨l, hn, h'⟩
  · rw [h'] at h
    rcases hostMove_cases { s with turns := s.turns.tail } with ⟨u, h2, hc, hr⟩ | ⟨r, rest, hp, h2⟩
    · rw [h2] at h
      injection h with h
      subst h
      exact .inl ⟨hn, ⟨⟨hc.h, hc.w, hc.x, hc.rnd, hc.active, hc.pend, hc.buf, hc.len, hc.fin, hc.dataIn, hc.done⟩,
        hc.err, hc.errcode⟩, hr⟩
    · rw [h2] at h
      have hnr : s.nextRequest = some r := by
        have hp : s.program = _ := hp
        simp [State.nextRequest, hn, hp]
      rcases runRequest_cases r { s with turns := s.turns.tail, program := rest } with
        ⟨u, h3, hc, hh⟩ | ⟨e, -, he, hr, hk, h3⟩ | ⟨hr, hb, c, u, hrq, hi, ha, h3⟩ | ⟨hr, hb, he, v, hrq, h3⟩
      · rw [h3] at h
        injection h with h
        subst h
        exact .inl ⟨hn, ⟨⟨hc.h, hc.w, hc.x, hc.rnd, hc.active, hc.pend, hc.buf, hc.len, hc.fin, hc.dataIn, hc.done⟩,
          hc.err, hc.errcode⟩, hh.rst⟩
      · rw [h3] at h
        injection h with h
        subst h
        exact .inr (.inl ⟨hn, he, hr, by constructor <;> rfl, rfl, rfl, e, hk, rfl⟩)
      · rw [h3] at h
        injection h with h
        subst h
        exact .inr (.inr (.inl ⟨hr, hb, c, rest, by rw [hnr, hrq], hi, ha⟩))
      · rw [h3] at h
        injection h with h
        subst h
        exact .inr (.inr (.inr (.inl ⟨hn, hr, hb, he, v, rest, by rw [hnr, hrq], rfl⟩)))
  · rw [h'] at h
    injection h with h
    exact .inr (.inr (.inr (.inr (.inl ⟨hn, h.symm⟩))))
  · rw [h'] at h
    injection h with h
    exact .inr (.inr (.inr (.inr (.inr ⟨hn, l, h.symm⟩))))

end Sys2Proof.Machine
end

