-- ==== Sys2Proof/Laws/Blocks.lean ====
section
/-! SUPPORT. Blocks as byte sequences, cutting a sequence in two at a block boundary, and what absorbing many bytes leaves (41_padder_splitter R126, R129). -/

namespace Sys2Proof.Machine

theorem toList_blockOf (p : List Byte) (h : p.length = 64) : (blockOf p).toList = p := by
  apply List.ext_getElem
  · simp [h]
  · intro i h1 h2
    simp [blockOf, List.getElem?_eq_getElem h2]

/-- The blocks of n whole blocks make up the sequence. -/
theorem blocksOf_flatten (n : Nat) (p : List Byte) (h : p.length = 64 * n) : (blocksOf n p).flatMap Vector.toList = p := by
  induction n generalizing p with
  | zero =>
    simp only [Nat.mul_zero, List.length_eq_zero_iff] at h
    subst h
    rfl
  | succ n ih =>
    simp only [blocksOf, List.flatMap_cons]
    rw [toList_blockOf _ (by simp; omega), ih _ (by simp; omega), List.take_append_drop]

theorem blocksOf_append (n k : Nat) (p q : List Byte) (h : p.length = 64 * n) :
    blocksOf (n + k) (p ++ q) = blocksOf n p ++ blocksOf k q := by
  induction n generalizing p with
  | zero =>
    simp only [Nat.mul_zero, List.length_eq_zero_iff] at h
    subst h
    simp [blocksOf]
  | succ n ih =>
    rw [Nat.succ_add]
    simp only [blocksOf]
    rw [List.take_append_of_le_length (by omega), List.drop_append_of_le_length (by omega), ih _ (by simp; omega)]
    rfl

theorem pad_length (m : List Byte) : (pad m).length = m.length + 1 + padZeros m.length + 8 := by
  simp [pad]
  omega

theorem absorbAll_append (m n : List Byte) (s : State) : absorbAll (m ++ n) s = absorbAll n (absorbAll m s) := by
  simp [absorbAll]

/-- DATA_IN takes no part in absorbing bytes that are already taken from it. -/
theorem absorbAll_dataIn (m : List Byte) (s : State) (v : Word) :
    absorbAll m { s with dataIn := v } = { absorbAll m s with dataIn := v } := by
  induction m generalizing s with
  | nil => rfl
  | cons d m ih =>
    have : absorbByte { s with dataIn := v } d = { absorbByte s d with dataIn := v } := by
      unfold absorbByte
      split <;> rfl
    show absorbAll m (absorbByte _ d) = _
    rw [this, ih]
    rfl

/-- What m bytes leave, from any partial block: the blocks they complete, and the rest. -/
theorem absorbAll_stream (m : List Byte) (s : State) (hb : s.buf.length ≤ 63) :
    (absorbAll m s).pend = s.pend ++ blocksOf ((s.buf.length + m.length) / 64) (s.buf ++ m) ∧
    (absorbAll m s).buf = (s.buf ++ m).drop (64 * ((s.buf.length + m.length) / 64)) := by
  induction m generalizing s with
  | nil =>
    have : s.buf.length / 64 = 0 := by omega
    simp [absorbAll, this, blocksOf]
  | cons d m ih =>
    have hu : absorbAll (d :: m) s = absorbAll m (absorbByte s d) := rfl
    rw [hu]
    by_cases h63 : s.buf.length = 63
    · rw [absorbByte_of_eq _ _ h63]
      have := ih { s with pend := s.pend ++ [blockOf (s.buf ++ [d])], buf := [], len := s.len + 8 } (by simp)
      rw [this.1, this.2]
      have e1 : (s.buf.length + (d :: m).length) / 64 = 1 + m.length / 64 := by simp only [List.length_cons]; omega
      have e2 : s.buf ++ d :: m = (s.buf ++ [d]) ++ m := by simp
      have e3 : blocksOf (1 + m.length / 64) ((s.buf ++ [d]) ++ m) = blocksOf 1 (s.buf ++ [d]) ++ blocksOf (m.length / 64) m :=
        blocksOf_append 1 _ _ _ (by simp [h63])
      have e4 : blocksOf 1 (s.buf ++ [d]) = [blockOf (s.buf ++ [d])] := by
        simp only [blocksOf]
        rw [List.take_of_length_le (by simp [h63])]
      rw [e1, e2, e3, e4]
      refine ⟨by simp, ?_⟩
      have e5 : 64 * (1 + m.length / 64) = (s.buf ++ [d]).length + 64 * (m.length / 64) := by
        simp only [List.length_append, List.length_singleton, h63]
        omega
      simp only [List.length_nil, List.nil_append, Nat.zero_add]
      rw [e5, ← List.drop_drop, List.drop_left' rfl]
    · rw [absorbByte_of_ne _ _ h63]
      have := ih { s with buf := s.buf ++ [d], len := s.len + 8 } (by simp; omega)
      rw [this.1, this.2]
      have e1 : (s.buf ++ [d]).length + m.length = s.buf.length + (d :: m).length := by
        simp only [List.length_append, List.length_cons, List.length_nil]
        omega
      simp only [e1, List.append_assoc, List.singleton_append]
      exact ⟨trivial, trivial⟩

/-- At most 64 bytes complete at most one block: the whole state they leave. -/
theorem absorbAll_closed (m : List Byte) (s : State) (hb : s.buf.length ≤ 63) (hm : m.length ≤ 64) :
    (s.buf.length + m.length < 64 → absorbAll m s = { s with buf := s.buf ++ m, len := s.len + bitLength m }) ∧
    (64 ≤ s.buf.length + m.length → absorbAll m s =
      { s with
        pend := s.pend ++ [blockOf ((s.buf ++ m).take 64)]
        buf := (s.buf ++ m).drop 64
        len := s.len + bitLength m }) := by
  have f := absorbAll_frame m s
  have hs := absorbAll_stream m s hb
  have hl := absorbAll_len m s
  have ext : ∀ t u : State, AbsorbFrame s t → AbsorbFrame s u → t.pend = u.pend → t.buf = u.buf → t.len = u.len → t = u := by
    rintro ⟨⟩ ⟨⟩ ⟨⟩ ⟨⟩
    simp_all
  constructor
  · intro h
    have e : (s.buf.length + m.length) / 64 = 0 := by omega
    rw [e] at hs
    exact ext _ _ f (by constructor <;> rfl) (by simpa [blocksOf] using hs.1) (by simpa using hs.2) hl
  · intro h
    have e : (s.buf.length + m.length) / 64 = 1 := by omega
    rw [e] at hs
    exact ext _ _ f (by constructor <;> rfl) (by simpa [blocksOf] using hs.1) (by simpa using hs.2) hl

end Sys2Proof.Machine
end

