-- ==== Sys2Proof/Laws/CoreSteps.lean ====
section
/-! SUPPORT. START, ROUND and the end of a block as equations, and what n core steps make of the head block (42_compressor R152 to R156). -/

namespace Sys2Proof.Machine

theorem firstRounds_succ (x : Vector Word 16) (w : Quad) (n : Nat) :
    firstRounds x w (n + 1) = oneRound (Fin.ofNat 64 n) x (firstRounds x w n) := rfl

theorem compressAll_append (as bs : List Block) (h : Quad) : compressAll (as ++ bs) h = compressAll bs (compressAll as h) := by
  simp [compressAll]

theorem coreStep_start {s : State} {b : Block} {rest : List Block} (hr : s.rst = false) (ha : s.active = false)
    (hp : s.pend = b :: rest) : coreStep s = startStep b s := by simp [coreStep, hr, ha, hp]

theorem coreStep_round {s : State} (hr : s.rst = false) (ha : s.active = true) (hn : s.rnd.val < 63) :
    coreStep s = { s with w := oneRound s.rnd s.x s.w, rnd := s.rnd + 1 } := by simp [coreStep, roundStep, hr, ha, hn]

theorem coreStep_last {s : State} (hr : s.rst = false) (ha : s.active = true) (hn : s.rnd = 63) :
    coreStep s = endOfBlock { s with w := oneRound 63 s.x s.w } := by simp [coreStep, roundStep, hr, ha, hn]

theorem coreSteps_add (m n : Nat) (s : State) : coreSteps (m + n) s = coreSteps n (coreSteps m s) := by
  induction m generalizing s with
  | zero => simp [coreSteps]
  | succ m ih => rw [Nat.succ_add]; simp [coreSteps, ih]

theorem coreSteps_succ_last (n : Nat) (s : State) : coreSteps (n + 1) s = coreStep (coreSteps n s) := by
  rw [coreSteps_add]
  rfl

/-- Within the head block: after START and k rounds. -/
theorem coreSteps_inBlock {s : State} {b : Block} {rest : List Block} (hr : s.rst = false) (ha : s.active = false)
    (hp : s.pend = b :: rest) (k : Nat) (hk : k ≤ 63) :
    coreSteps (k + 1) s =
      { s with x := wordsOf b, w := firstRounds (wordsOf b) s.h k, rnd := Fin.ofNat 64 k, active := true } := by
  induction k with
  | zero => simp only [coreSteps]; rw [coreStep_start hr ha hp]; rfl
  | succ k ih =>
    have h1 : (Fin.ofNat 64 k).val = k := by simp; omega
    have h2 : Fin.ofNat 64 k + 1 = Fin.ofNat 64 (k + 1) := by
      apply Fin.ext
      simp [Fin.val_add]
    rw [coreSteps_succ_last, ih (by omega)]
    refine (coreStep_round (s := { s with x := wordsOf b, w := firstRounds (wordsOf b) s.h k, rnd := Fin.ofNat 64 k, active := true })
      hr rfl (by show (Fin.ofNat 64 k).val < 63; omega)).trans ?_
    simp only [h2]
    rfl

/-- The last step of the head block, as an update of the state before START. -/
theorem coreStep_last_update {s : State} (x : Vector Word 16) (p : Quad) (hr : s.rst = false) :
    coreStep { s with x := x, w := p, rnd := 63, active := true } =
      { s with
        x := x
        w := oneRound 63 x p
        rnd := 0
        active := false
        h := addQuad s.h (oneRound 63 x p)
        pend := s.pend.tail
        done := finishesMessage s || s.done
        fin := !finishesMessage s && s.fin } :=
  coreStep_last (s := { s with x := x, w := p, rnd := 63, active := true }) hr rfl rfl

/-- The 65 steps of the head block, from a core that is not compressing (R156). -/
theorem coreSteps_block {s : State} {b : Block} {rest : List Block} (hr : s.rst = false) (ha : s.active = false)
    (hp : s.pend = b :: rest) :
    coreSteps (64 + 1) s =
      { s with
        x := wordsOf b
        w := firstRounds (wordsOf b) s.h 64
        rnd := 0
        active := false
        h := compress b s.h
        pend := rest
        done := finishesMessage s || s.done
        fin := !finishesMessage s && s.fin } := by
  have h2 : firstRounds (wordsOf b) s.h 64 = oneRound 63 (wordsOf b) (firstRounds (wordsOf b) s.h 63) :=
    firstRounds_succ (wordsOf b) s.h 63
  have ht : rest = s.pend.tail := by rw [hp]; rfl
  rw [compress, h2, ht, coreSteps_succ_last, coreSteps_inBlock hr ha hp 63 (by omega)]
  exact coreStep_last_update (wordsOf b) (firstRounds (wordsOf b) s.h 63) hr

end Sys2Proof.Machine
end

