-- ==== Sys2Proof/Laws/Run.lean ====
section
/-! SUPPORT. Runs of many steps: composing them, one step of each agent under the default order of moves, and a run of core steps. -/

namespace Sys2Proof.Machine

theorem run_add (j k : Nat) (s t : State) (h : Host.Core.run Sys2Proof.core j s = .next t) :
    Host.Core.run Sys2Proof.core (j + k) s = Host.Core.run Sys2Proof.core k t := by
  induction j generalizing s with
  | zero =>
    rw [Nat.zero_add]
    injection h with h
    subst h
    rfl
  | succ j ih =>
    rw [Nat.succ_add]
    simp only [Host.Core.run] at h ⊢
    split at h
    · rename_i u hu
      exact ih u h
    · cases h
    · cases h

theorem run_one {s t : State} (h : step s = .next t) : Host.Core.run Sys2Proof.core 1 s = .next t := by
  have : Sys2Proof.core.step s = .next t := h
  simp [Host.Core.run, this]

/-- With no turns listed and BUSY = 0, the host's next transaction. -/
theorem step_access {s : State} {r : Request} {rest : List HostOp} (ht : s.turns = []) (hb : s.busy = false)
    (hp : s.program = .access r :: rest) : step s = runRequest r { s with program := rest } := by
  have h1 : nextTurn s = .host := by simp [nextTurn, ht, hb]
  have : step s = runRequest r { s with turns := s.turns.tail, program := rest } := by
    simp [step, moveNext, h1, move, hostMove, hp]
  rw [this, ht]
  simp only [List.tail_nil]

/-- With no turns listed and BUSY = 1, the core's step. -/
theorem step_core {s : State} (ht : s.turns = []) (hb : s.busy = true) : step s = .next (coreStep s) := by
  have h1 : nextTurn s = .core := by simp [nextTurn, ht, hb]
  have : step s = .next (coreStep { s with turns := s.turns.tail }) := by simp [step, moveNext, h1, move]
  rw [this, ht]
  simp only [List.tail_nil]
  rw [← ht]

theorem coreSteps_turns (n : Nat) (s : State) : (coreSteps n s).turns = s.turns := by
  induction n with
  | zero => rfl
  | succ n ih =>
    rw [coreSteps_succ_last]
    rcases coreStep_cases (coreSteps n s) with ⟨h, -⟩ | ⟨-, -, b, rest, -, h⟩ | ⟨-, -, -, h⟩ | ⟨-, -, -, h⟩ <;>
      rw [h] <;> exact ih

/-- While BUSY = 1 the default order of moves runs the core. -/
theorem run_coreSteps (n : Nat) (s : State) (ht : s.turns = []) (hb : ∀ j, j < n → (coreSteps j s).busy = true) :
    Host.Core.run Sys2Proof.core n s = .next (coreSteps n s) := by
  induction n with
  | zero => rfl
  | succ n ih =>
    rw [run_add n 1 s _ (ih fun j hj => hb j (by omega)), coreSteps_succ_last]
    exact run_one (step_core (by rw [coreSteps_turns, ht]) (hb n (by omega)))

end Sys2Proof.Machine
end

