-- ==== Sys2Proof/Laws/Sine.lean ====
section
/-! SUPPORT. The sine of a whole number, enclosed: powers of a rational approximation of e^i (for 40_rotator_tables R104). Nothing here speaks of the model. -/

namespace Sys2Proof.Laws.Sine

theorem norm_pow_sub_pow_le (z w : ℂ) (hz : ‖z‖ ≤ 1) (hw : ‖w‖ ≤ 1) (n : ℕ) : ‖z ^ n - w ^ n‖ ≤ n * ‖z - w‖ := by
  induction n with
  | zero => simp
  | succ n ih =>
    have e : z ^ (n + 1) - w ^ (n + 1) = z ^ n * (z - w) + (z ^ n - w ^ n) * w := by ring
    have h1 : ‖z ^ n * (z - w)‖ ≤ ‖z - w‖ := by
      rw [norm_mul, norm_pow]
      exact mul_le_of_le_one_left (norm_nonneg _) (pow_le_one₀ (norm_nonneg _) hz)
    have h2 : ‖(z ^ n - w ^ n) * w‖ ≤ n * ‖z - w‖ := by
      rw [norm_mul]
      exact (mul_le_of_le_one_right (norm_nonneg _) hw).trans ih
    calc ‖z ^ (n + 1) - w ^ (n + 1)‖ ≤ ‖z ^ n * (z - w)‖ + ‖(z ^ n - w ^ n) * w‖ := by rw [e]; exact norm_add_le _ _
      _ ≤ _ := by push_cast; linarith

/-- The n-th power of e^i, cosine then sine, where e^i is scaled by 2^64 and rounded down: scaled by 2^(64 n). -/
def gauss : Nat → Int × Int
  | 0 => (1, 0)
  | n + 1 =>
    ((gauss n).1 * 9966818358784711825 - (gauss n).2 * 15522399902203605024,
     (gauss n).1 * 15522399902203605024 + (gauss n).2 * 9966818358784711825)

/-- The rational approximation of e^i. -/
noncomputable def unit : ℂ := ⟨9966818358784711825 / 2 ^ 64, 15522399902203605024 / 2 ^ 64⟩

theorem unit_pow (n : ℕ) : unit ^ n = ⟨(gauss n).1 / 2 ^ (64 * n), (gauss n).2 / 2 ^ (64 * n)⟩ := by
  induction n with
  | zero => apply Complex.ext <;> simp [gauss]
  | succ n ih =>
    rw [pow_succ, ih]
    have : (2 : ℝ) ^ (64 * (n + 1)) = 2 ^ (64 * n) * 2 ^ 64 := by rw [← pow_add]; ring_nf
    apply Complex.ext <;> simp only [gauss, unit, Complex.mul_re, Complex.mul_im, this] <;> push_cast <;> field_simp

theorem unit_norm : ‖unit‖ ≤ 1 := by
  rw [← sq_le_one_iff₀ (norm_nonneg _), ← Complex.normSq_eq_norm_sq, Complex.normSq_apply]
  simp only [unit]
  norm_num

/-- The even and the odd terms of the exponential series at i. -/
theorem series_I (k : ℕ) : ∑ m ∈ Finset.range (2 * k), Complex.I ^ m / (m.factorial : ℂ) =
    ⟨∑ m ∈ Finset.range k, (-1 : ℝ) ^ m / (2 * m).factorial, ∑ m ∈ Finset.range k, (-1 : ℝ) ^ m / (2 * m + 1).factorial⟩ := by
  have hI : Complex.I ^ (2 * k) = ((-1 : ℝ) ^ k : ℝ) := by rw [pow_mul, Complex.I_sq]; push_cast; rfl
  induction k with
  | zero => apply Complex.ext <;> simp
  | succ k ih =>
    have hI : Complex.I ^ (2 * k) = ((-1 : ℝ) ^ k : ℝ) := by rw [pow_mul, Complex.I_sq]; push_cast; rfl
    rw [Nat.mul_succ, Finset.sum_range_succ, Finset.sum_range_succ, ih hI, pow_succ, hI]
    simp only [Finset.sum_range_succ (n := k)]
    generalize (-1 : ℝ) ^ k = r
    apply Complex.ext <;> simp [Complex.div_natCast_re, Complex.div_natCast_im]

theorem exp_I_close : ‖Complex.exp Complex.I - unit‖ ≤ 1 / 10 ^ 17 := by
  have h := Complex.exp_bound (x := Complex.I) (by simp) (n := 22) (by norm_num)
  rw [series_I 11, Complex.norm_I, one_pow, one_mul] at h
  have h2 : ‖(⟨∑ m ∈ Finset.range 11, (-1 : ℝ) ^ m / (2 * m).factorial,
      ∑ m ∈ Finset.range 11, (-1 : ℝ) ^ m / (2 * m + 1).factorial⟩ : ℂ) - unit‖ ≤ 1 / 10 ^ 18 := by
    refine (Complex.norm_le_abs_re_add_abs_im _).trans ?_
    simp only [Finset.sum_range_succ, Finset.sum_range_zero, unit, Complex.sub_re, Complex.sub_im, Nat.factorial]
    norm_num [abs_le, abs_of_nonneg, abs_of_pos]
  refine ((norm_sub_le_norm_sub_add_norm_sub _ _ unit).trans (add_le_add h h2)).trans ?_
  norm_num [Nat.factorial]

/-- The sine of n, in radians, to within n / 10^17. -/
theorem sin_close (n : ℕ) : |Real.sin n - (gauss n).2 / 2 ^ (64 * n)| ≤ n / 10 ^ 17 := by
  have h := norm_pow_sub_pow_le (Complex.exp Complex.I) unit (by simpa using (Complex.norm_exp_ofReal_mul_I 1).le) unit_norm n
  have h1 := (Complex.abs_im_le_norm _).trans h
  rw [unit_pow, ← Complex.exp_nat_mul, Complex.sub_im] at h1
  have e : (Complex.exp (n * Complex.I)).im = Real.sin n := by
    have := Complex.exp_ofReal_mul_I_im (n : ℝ)
    simpa using this
  rw [e] at h1
  refine h1.trans ?_
  have := exp_I_close
  calc (n : ℝ) * ‖Complex.exp Complex.I - unit‖ ≤ n * (1 / 10 ^ 17) := by gcongr
    _ = _ := by ring

end Sys2Proof.Laws.Sine
end

