-- ==== Sys2Proof/Tests/Slice0.lean ====
section
/-! SUPPORT. The model's own tests: words written out from the spec's encodings, the vectors of spec/95_test_vectors.md (V<n>), and for each statement with hypotheses a witness that meets them. Every expected value is the spec's. -/

namespace Sys2Proof.Tests

open Sys2Proof Sys2Proof.Machine

/-! ### Helpers -/

/-- The next state of an answer. -/
def nextOf : Result → Option State
  | .next t => some t
  | .fault _ => none
  | .refused _ => none

/-- The STATUS value an answer leaves. -/
def statusOf (r : Result) : Option Word := (nextOf r).map State.statusWord

/-- The value an answer's read returned. -/
def readOf (r : Result) : Option Word := (nextOf r).bind fun t => t.reads.head?

/-- After FINISH from reset: BUSY = 1, the empty message's block pending (V65). -/
def busyState : State := queueTail (tailBlocks [] 0) State.reset

/-- After START of that block. -/
def activeState : State := coreStep busyState

/-- Before the last ROUND of that block. -/
def lastRoundState : State := coreSteps 64 busyState

/-- An ILLEGAL error recorded, BUSY = 0. -/
def errorState : State := raiseError .illegal State.reset

/-- A BUSY error recorded while BUSY = 1 (V65). -/
def busyErrorState : State := raiseError .busy busyState

/-- With `rst` asserted. -/
def heldState : State := applyReset true State.reset

/-- n bytes 0x61 absorbed into the partial block, with DATA_IN = 0x64636261. -/
def partialState (n : Nat) : State :=
  { State.reset with buf := List.replicate n 0x61, len := BitVec.ofNat 64 (8 * n), dataIn := 0x64636261 }

/-- A host about to perform these operations. -/
def withProgram (ops : List HostOp) (s : State) : State := { s with program := ops, turns := [.host] }

/-! ### WellFormed: the ill-formed term of its one check -/

theorem test_wellFormed_refuses_legal_word_as_wrCmd :
    ([0x00, 0x01, 0x02, 0x12, 0x22, 0x32, 0x03] : List Word).all (fun v => !(Instr.wrCmd 4 v).wellFormed) = true := by decide

theorem test_wellFormed_admits_other_wrCmd :
    (Instr.wrCmd 4 0x04).wellFormed = true ∧ (Instr.wrCmd 2 0x00).wellFormed = true ∧ (Instr.wrDataIn 4 0x00).wellFormed = true := by decide

/-! ### Decoding: every constructor from a word or a request written out (30_encoding R80, R85; 10_state R34; 20_memory R65) -/

theorem test_decode_NOP : decodeTableWord 32 0b0000000000000000000000000000_0000 = some .nop := by decide

theorem test_decode_INIT : decodeTableWord 32 0b0000000000000000000000000000_0001 = some .init := by decide

theorem test_decode_ABSORB :
    decodeTableWord 32 0b00000000000000000000000000_00_0010 = some (.absorb 0) ∧
    decodeTableWord 32 0b00000000000000000000000000_01_0010 = some (.absorb 1) ∧
    decodeTableWord 32 0b00000000000000000000000000_10_0010 = some (.absorb 2) ∧
    decodeTableWord 32 0b00000000000000000000000000_11_0010 = some (.absorb 3) := by decide

theorem test_decode_FINISH : decodeTableWord 32 0b0000000000000000000000000000_0011 = some .finish := by decide

theorem test_decode_WR_CMD :
    (decode { write := true, off := 0b000000, size := 4, wdata := 0b01_0011 }).toOption = some (.wrCmd 4 0x13) ∧
    (decode { write := true, off := 0b000000, size := 2, wdata := 0b0001 }).toOption = some (.wrCmd 2 0x1) := by decide

theorem test_decode_WR_DATA_IN :
    (decode { write := true, off := 0b001000, size := 4, wdata := 0x64636261 }).toOption = some (.wrDataIn 4 0x64636261) := by decide

theorem test_decode_RD_CMD : decodeTableWord 8 0b00_000000 = some (.rdCmd 4) := by decide
theorem test_decode_RD_STATUS : decodeTableWord 8 0b00_000100 = some (.rdStatus 4) := by decide
theorem test_decode_RD_DATA_IN : decodeTableWord 8 0b00_001000 = some (.rdDataIn 4) := by decide
theorem test_decode_RD_RESERVED_0C : decodeTableWord 8 0b00_001100 = some (.rdReserved0C 4) := by decide
theorem test_decode_RD_DIGEST0 : decodeTableWord 8 0b00_010000 = some (.rdDigest0 4) := by decide
theorem test_decode_RD_DIGEST1 : decodeTableWord 8 0b00_010100 = some (.rdDigest1 4) := by decide
theorem test_decode_RD_DIGEST2 : decodeTableWord 8 0b00_011000 = some (.rdDigest2 4) := by decide
theorem test_decode_RD_DIGEST3 : decodeTableWord 8 0b00_011100 = some (.rdDigest3 4) := by decide
theorem test_decode_RD_LEN_LO : decodeTableWord 8 0b00_100000 = some (.rdLenLo 4) := by decide
theorem test_decode_RD_LEN_HI : decodeTableWord 8 0b00_100100 = some (.rdLenHi 4) := by decide
theorem test_decode_RD_RESERVED_28 : decodeTableWord 8 0b00_101000 = some (.rdReserved28 4) := by decide
theorem test_decode_RD_ID : decodeTableWord 8 0b00_101100 = some (.rdId 4) := by decide
theorem test_decode_RD_RESERVED_30 : decodeTableWord 8 0b00_110000 = some (.rdReserved30 4) := by decide
theorem test_decode_RD_RESERVED_34 : decodeTableWord 8 0b00_110100 = some (.rdReserved34 4) := by decide
theorem test_decode_RD_RESERVED_38 : decodeTableWord 8 0b00_111000 = some (.rdReserved38 4) := by decide
theorem test_decode_RD_RESERVED_3C : decodeTableWord 8 0b00_111100 = some (.rdReserved3C 4) := by decide

/-- V61's illegal words, and the reason each is refused for (30_encoding R86). -/
theorem test_decode_refuses_by_name :
    decodeCommand 0x00000004 = .error .unknownOperation ∧ decodeCommand 0x0000000F = .error .unknownOperation ∧
    decodeCommand 0x00000013 = .error .countNotAllowed ∧ decodeCommand 0x00000031 = .error .countNotAllowed ∧
    decodeCommand 0x00000040 = .error .reservedBitsSet ∧ decodeCommand 0x80000001 = .error .reservedBitsSet := by
  refine ⟨?_, ?_, ?_, ?_, ?_, ?_⟩ <;> rfl

theorem test_decode_refuses_requests_of_no_row :
    decode (memWrite 0x04 4 0) = .error .notWritable ∧ decode (memWrite 0x10 4 5) = .error .notWritable ∧
    decode (memWrite 0x09 4 5) = .error .notWritable ∧ decode (memRead 0x12 4) = .error .misalignedRead := by
  refine ⟨?_, ?_, ?_, ?_⟩ <;> rfl

/-- Decoding the encoding of one instruction of each family, by evaluation. -/
theorem test_round_trip :
    [Instr.init, .absorb 3, .wrCmd 1 0x2, .wrCmd 4 0x44, .wrDataIn 4 0xFFFFFFFF, .rdStatus 4, .rdReserved3C 2].all
      (fun i => decide ((decode (encode i)).toOption = some i)) = true := by decide

/-! ### Rotator, tables, padder (V10 to V26) -/

theorem test_rotl_V10 :
    rotl 0x80000000 1 = 0x00000001 ∧ rotl 0x00000001 31 = 0x80000000 ∧ rotl 0x12345678 4 = 0x23456781 ∧
    rotl 0xFFFFFFFF 7 = 0xFFFFFFFF ∧ rotl 0x00000000 23 = 0x00000000 ∧ rotl 0x87654321 16 = 0x43218765 := by decide

theorem test_rotl_V11 : rotl 0x12345678 0 = 0x12345678 ∧ rotl 0x12345678 32 = 0x12345678 := by decide

theorem test_tables_V12_V13 :
    tableT[0] = 0xD76AA478 ∧ tableT[30] = 0x676F02D9 ∧ tableT[63] = 0xEB86D391 ∧
    [tableS[0], tableS[15], tableS[16], tableS[19], tableS[32], tableS[35], tableS[48], tableS[63]] = [7, 22, 5, 20, 4, 23, 6, 21] := by decide

theorem test_hexDigest_V14 : hexDigest iv = "0123456789abcdeffedcba9876543210".toList := by decide

theorem test_pad_V20 :
    [0, 1, 3, 55, 56, 57, 63, 64, 65, 119, 120].map padZeros = [55, 54, 52, 0, 63, 62, 56, 55, 54, 0, 63] ∧
    (pad (List.replicate 55 0x61)).drop 55 = [0x80, 0xb8, 0x01, 0, 0, 0, 0, 0, 0] := by decide

theorem test_pad_V21 : pad [] = 0x80 :: List.replicate 63 0x00 := by decide

theorem test_words_V22 :
    (splitBlocks (pad [0x61, 0x62, 0x63])).map (fun bs => bs.map fun b => (wordsOf b).toList) =
      some [[0x80636261, 0, 0, 0, 0, 0, 0, 0, 0, 0, 0, 0, 0, 0, 0x18, 0]] := by decide

theorem test_le64bytes_V24 : le64bytes 0x0000000123456789 = [0x89, 0x67, 0x45, 0x23, 0x01, 0x00, 0x00, 0x00] := by decide

/-! ### Compressor (V30 to V50) -/

theorem test_roundFunction_V35 :
    roundFunction 0 0x12345678 0x9ABCDEF0 0x0F0F0F0F = 0x1F3F5F77 ∧ roundFunction 16 0x12345678 0x9ABCDEF0 0x0F0F0F0F = 0x92B4D6F8 ∧
    roundFunction 32 0x12345678 0x9ABCDEF0 0x0F0F0F0F = 0x87878787 ∧ roundFunction 63 0x12345678 0x9ABCDEF0 0x0F0F0F0F = 0x68482808 := by decide

theorem test_roundFunction_V30_V34 :
    roundFunction 48 0 0 0 = 0xFFFFFFFF ∧ roundFunction 48 0xFFFFFFFF 0xFFFFFFFF 0xFFFFFFFF = 0 ∧
    roundFunction 15 0 0 0xFFFFFFFF = 0xFFFFFFFF ∧ roundFunction 31 0 0xFFFFFFFF 0 = 0xFFFFFFFF ∧
    roundFunction 47 0xFFFFFFFF 0 0 = 0xFFFFFFFF := by decide

theorem test_wordIndex_V36 :
    [16, 17, 31, 32, 47, 48, 49, 63].map wordIndex = [1, 6, 12, 5, 2, 0, 7, 9] := by decide

theorem test_oneRound_V37 :
    oneRound 0 (Vector.replicate 16 0xFFFFFFFF) ⟨0xFFFFFFFF, 0xFFFFFFFF, 0xFFFFFFFF, 0xFFFFFFFF⟩ =
      ⟨0xFFFFFFFF, 0xB5523AEA, 0xFFFFFFFF, 0xFFFFFFFF⟩ := by decide

theorem test_oneRound_V38_V39 :
    oneRound 32 (Vector.replicate 16 0) ⟨0, 0, 0, 0⟩ = ⟨0, 0xFFA3942F, 0, 0⟩ ∧
    oneRound 63 (Vector.replicate 16 0) ⟨0, 0, 0, 0⟩ = ⟨0, 0x721D70DA, 0, 0⟩ := by decide

/-- The block of "abc", from its words (V22, V40). -/
theorem test_firstRounds_V40 :
    firstRounds #v[0x80636261, 0, 0, 0, 0, 0, 0, 0, 0, 0, 0, 0, 0, 0, 0x18, 0] iv 17 =
      ⟨0xA1051895, 0x3E9E9126, 0x72AFF2E0, 0xE396856B⟩ := by decide +kernel

/-- V50, and with it all 64 rounds and the final sum. -/
theorem test_compress_V50 : compress (Vector.replicate 64 0x00) iv = ⟨0x031F1DAC, 0x6EA58ED0, 0x1FAB67B7, 0x74317791⟩ := by decide +kernel

/-- V1 and V2: the digests of "" and "abc", by the source's functions. -/
theorem test_digest_V1_V2 :
    (splitBlocks (pad [])).map (fun bs => compressAll bs iv) = some ⟨0xD98C1DD4, 0x04B2008F, 0x980980E9, 0x7E42F8EC⟩ ∧
    (splitBlocks (pad [0x61, 0x62, 0x63])).map (fun bs => compressAll bs iv) =
      some ⟨0x98500190, 0xB04FD23C, 0x7D3F96D6, 0x727FE128⟩ := by decide +kernel

/-- V54: START, then one ROUND of the empty message's block (V41). -/
theorem test_core_steps_V41_V54 :
    activeState.active = true ∧ activeState.rnd = 0 ∧ activeState.w = iv ∧
    (coreStep activeState).w = ⟨0x10325476, 0xA5202774, 0xEFCDAB89, 0x98BADCFE⟩ := by decide

/-! ### Commands, reads and errors (V60 to V74) -/

theorem test_reads_after_reset_V60 :
    [exec (.rdStatus 4) State.reset, exec (.rdDataIn 4) State.reset, exec (.rdDigest0 4) State.reset, exec (.rdDigest1 4) State.reset,
      exec (.rdDigest2 4) State.reset, exec (.rdDigest3 4) State.reset].map readOf =
      [some 0, some 0, some 0x67452301, some 0xEFCDAB89, some 0x98BADCFE, some 0x10325476] := by decide

theorem test_more_reads_after_reset_V60 :
    [exec (.rdLenLo 4) State.reset, exec (.rdLenHi 4) State.reset, exec (.rdId 4) State.reset, exec (.rdCmd 4) State.reset,
      exec (.rdReserved0C 4) State.reset, exec (.rdReserved28 4) State.reset, exec (.rdReserved30 4) State.reset,
      exec (.rdReserved34 4) State.reset, exec (.rdReserved38 4) State.reset, exec (.rdReserved3C 4) State.reset].map readOf =
      [some 0, some 0, some 0x0035444D, some 0, some 0, some 0, some 0, some 0, some 0, some 0] := by decide

theorem test_illegal_words_V61 :
    ([0x00000004, 0x0000000F, 0x00000013, 0x00000031, 0x00000040, 0x80000001] : List Word).all
      (fun v => decide (statusOf (runRequest (memWrite 0x00 4 v) State.reset) = some 0x00000024)) = true := by decide

theorem test_ABSORB_V62 :
    statusOf (exec (.absorb 1) State.reset) = some 0x00000200 ∧ (nextOf (exec (.absorb 1) State.reset)).map State.len = some 16 := by decide

theorem test_address_errors_V63 :
    ([memWrite 0x10 4 5, memWrite 0x08 1 5, memWrite 0x09 4 5, memWrite 0x0C 4 0, memWrite 0x04 4 0, memWrite 0x00 2 0x4] : List Request).all
      (fun r => decide (statusOf (runRequest r State.reset) = some 0x00000044)) = true := by decide

theorem test_odd_reads_V64 :
    readOf (runRequest (memRead 0x10 2) State.reset) = some 0 ∧ readOf (runRequest (memRead 0x12 4) State.reset) = some 0 ∧
    statusOf (runRequest (memRead 0x12 4) State.reset) = some 0 := by decide

theorem test_FINISH_V65 :
    statusOf (exec .finish State.reset) = some 0x00000001 ∧ statusOf (runRequest (memWrite 0x00 4 0x4) busyState) = some 0x00000015 := by decide

theorem test_INIT_V66 :
    statusOf (exec .init busyErrorState) = some 0x00000015 ∧ statusOf (exec .init errorState) = some 0x00000000 ∧
    (nextOf (exec .init { errorState with h := ⟨1, 2, 3, 4⟩ })).map State.h = some iv := by decide

theorem test_NOP_V67_V68 :
    statusOf (exec .nop busyState) = some 0x00000015 ∧ nextOf (exec .nop State.reset) = some State.reset := by decide

theorem test_WR_DATA_IN_V69 :
    (nextOf (exec (.wrDataIn 4 0x64636261) State.reset)).map State.dataIn = some 0x64636261 ∧
    readOf (exec (.rdDataIn 4) (partialState 0)) = some 0x64636261 ∧
    (nextOf (exec (.absorb 3) (partialState 0))).map State.dataIn = some 0x64636261 := by decide

/-- V25: a block completed inside one ABSORB; STATUS is P8's. -/
theorem test_ABSORB_V25 :
    statusOf (exec (.absorb 3) (partialState 62)) = some 0x00000201 ∧
    (nextOf (exec (.absorb 3) (partialState 62))).map State.buf = some [0x63, 0x64] ∧
    (nextOf (exec (.absorb 3) (partialState 62))).map (fun t => t.pend.map Vector.toList) =
      some [List.replicate 62 0x61 ++ [0x61, 0x62]] := by decide +kernel

/-- V71: LEN wraps and nothing is recorded. -/
theorem test_ABSORB_len_wraps_V71 :
    (nextOf (exec (.absorb 0) { State.reset with len := 0xFFFFFFFFFFFFFFF8, dataIn := 0x41 })).map (fun t => decide (t.len = 0 ∧ t.cnt = 1 ∧ t.err = false)) =
      some true := by decide

/-- V26: one block up to CNT = 55, two from CNT = 56. -/
theorem test_FINISH_V26 :
    (nextOf (exec .finish (partialState 55))).map (fun t => t.pend.length) = some 1 ∧
    (nextOf (exec .finish (partialState 56))).map (fun t => t.pend.length) = some 2 := by decide +kernel

/-- V72: reset during a compression loses the block. -/
theorem test_reset_V72 :
    (nextOf (step { activeState with turns := [.assertRst] })).map (fun t => (t.h, t.pend, t.active, t.statusWord)) =
      some (iv, [], false, 0) := by decide

/-- The first step after reset runs a placed table word. -/
theorem test_step_runs_placed_word :
    readOf (step (State.reset.withFetchWord 8 0x2C)) = some 0x0035444D ∧
    statusOf (step (State.reset.withFetchWord 32 0x03)) = some 0x00000001 := by decide

/-- With nothing placed the machine idles. -/
theorem test_step_of_reset : nextOf (step State.reset) = some State.reset := by decide

theorem test_hexDigest_V2 :
    hexDigest ⟨0x98500190, 0xB04FD23C, 0x7D3F96D6, 0x727FE128⟩ = "900150983cd24fb0d6963f7d28e17f72".toList := by decide

/-! ### Witnesses: a concrete case that meets all hypotheses of a statement together, clause by clause

A statement not named here has no hypotheses. -/

theorem witness_DecodeOfEncodeIsTheInstruction :
    (Instr.absorb 3).wellFormed = true ∧ (Instr.wrCmd 4 0xFFFFFFFF).wellFormed = true ∧ (Instr.wrDataIn 0 0).wellFormed = true ∧
    decode (memRead 0x3C 4) = .ok (.rdReserved3C 4) ∧ decode { write := false, off := 0x00, size := 8, wdata := 7 } = .ok (.rdCmd 8) :=
  ⟨by decide, by decide, by decide, rfl, rfl⟩

theorem witness_LegalCommandWordsAreTheSeven :
    decodeCommand 0x32 = .ok (.absorb 3) ∧ legalCommand 0x04 = false ∧ legalCommand 0x40 = false ∧
    State.reset.rst = false ∧ State.reset.err = false ∧ State.reset.busy = false :=
  ⟨rfl, by decide, by decide, rfl, rfl, rfl⟩

theorem witness_WindowIsSixtyFourBytesAtBase : Config.base < Config.base + 64 ∧ Config.base + 64 ≤ Config.base + 64 := by omega

theorem witness_StepRunsTheDecodedInstruction :
    nextTurn (withProgram [.access (memWrite 0x00 4 0x03)] State.reset) = .host ∧
    (withProgram [.access (memWrite 0x00 4 0x03)] State.reset).program = .access (memWrite 0x00 4 0x03) :: [] ∧
    decode (memWrite 0x00 4 0x03) = .ok .finish := ⟨by decide, rfl, rfl⟩

theorem witness_PlacedTableWordRunsNext :
    decodeTableWord 32 0x22 = some (.absorb 2) ∧ decodeTableWord 8 0x3C = some (.rdReserved3C 4) := by decide

/-- The misaligned reads of the last offset and the writes on both sides of DATA_IN. -/
theorem witness_StepOfATransactionOfNoRow :
    let read := withProgram [.access (memRead 0x3F 4)] State.reset
    let write := withProgram [.access (memWrite 0x04 4 0)] State.reset
    let last := withProgram [.access (memWrite 0x3C 4 0)] State.reset
    (nextTurn read = .host ∧ read.program = .access (memRead 0x3F 4) :: [] ∧ (memRead 0x3F 4).write = false ∧
      (memRead 0x3F 4).off.toNat % 4 ≠ 0) ∧
    (nextTurn write = .host ∧ write.program = .access (memWrite 0x04 4 0) :: [] ∧ (memWrite 0x04 4 0).write = true ∧
      (memWrite 0x04 4 0).off ≠ 0x00 ∧ (memWrite 0x04 4 0).off ≠ 0x08 ∧ write.rst = false ∧ write.err = false ∧ write.busy = false) ∧
    (nextTurn last = .host ∧ last.program = .access (memWrite 0x3C 4 0) :: [] ∧ (memWrite 0x3C 4 0).write = true ∧
      (memWrite 0x3C 4 0).off ≠ 0x00 ∧ (memWrite 0x3C 4 0).off ≠ 0x08 ∧ last.rst = false ∧ last.err = false ∧ last.busy = false) := by
  decide

theorem witness_WaitReadsStatusAndLoopsWhileBusy :
    (nextTurn (withProgram [.wait] busyState) = .host ∧ (withProgram [.wait] busyState).program = .wait :: [] ∧
      (withProgram [.wait] busyState).rst = false ∧ (withProgram [.wait] busyState).busy = true) ∧
    (nextTurn (withProgram [.wait] State.reset) = .host ∧ (withProgram [.wait] State.reset).rst = false ∧
      (withProgram [.wait] State.reset).busy = false) := by decide

/-- One case for each line of the order of checks. -/
theorem witness_WriteChecksApplyInOrder :
    (errorState.rst = false ∧ errorState.err = true ∧ errorState.busy = false) ∧
    (busyErrorState.rst = false ∧ busyErrorState.err = true ∧ busyErrorState.busy = true) ∧
    (busyState.rst = false ∧ busyState.err = false ∧ busyState.busy = true) ∧
    (State.reset.rst = false ∧ State.reset.err = false ∧ State.reset.busy = false) ∧
    legalCommand 0x04 = false ∧ legalCommand 0x03 = true := by decide

theorem witness_BusyRefusesEveryWrite :
    (memWrite 0x3F 0 0).write = true ∧ (memWrite 0x08 4 5).write = true ∧
    busyState.rst = false ∧ busyState.err = false ∧ busyState.busy = true := by decide

theorem witness_AddressErrorsComeFromWritesOnly :
    (memWrite 0x08 1 5).write = true ∧ (memWrite 0x08 1 5).size ≠ 4 ∧ (memWrite 0x09 4 5).off.toNat % 4 ≠ 0 ∧
    (memWrite 0x0C 4 0).off ≠ 0x00 ∧ (memWrite 0x0C 4 0).off ≠ 0x08 ∧ (memRead 0x12 2).write = false ∧
    State.reset.rst = false ∧ State.reset.err = false ∧ State.reset.busy = false := by decide

theorem witness_ErrorIsStickyUntilInitOrReset :
    errorState.rst = false ∧ errorState.err = true ∧ errorState.busy = false ∧
    busyErrorState.rst = false ∧ busyErrorState.err = true ∧ busyErrorState.busy = true ∧
    (memWrite 0x00 4 0).write = true ∧ memWrite 0x00 4 0 ≠ memWrite 0x00 4 0x00000001 ∧
    isRead (.rdDigest0 4) = true ∧ nextOf (exec (.rdDigest0 4) errorState) = some (returnValue 0x67452301 errorState) := by decide

theorem witness_RejectedWriteChangesOnlyTheErrorRecord :
    ((memWrite 0x10 4 5).write = true ∧ checkWrite 0x10 4 5 State.reset = .reject .address ∧
      runRequest (memWrite 0x10 4 5) State.reset = .next (raiseError .address State.reset)) ∧
    ((memWrite 0x08 4 5).write = true ∧ checkWrite 0x08 4 5 errorState = .ignore ∧
      runRequest (memWrite 0x08 4 5) errorState = .next errorState) :=
  ⟨⟨rfl, rfl, rfl⟩, ⟨rfl, rfl, rfl⟩⟩

/-- A first error, and a later step that keeps it. -/
theorem witness_FirstErrorIsKept :
    (nextOf (step (withProgram [.access (memWrite 0x04 4 0)] State.reset))).map (fun t => (t.err, t.errcode)) = some (true, 4) ∧
    (nextOf (step (withProgram [.access (memWrite 0x00 4 0x4)] busyErrorState))).map (fun t => (t.err, t.errcode)) = some (true, 1) := by
  decide

theorem witness_NopHasNoEffect :
    (State.reset.rst = false ∧ State.reset.err = false ∧ State.reset.busy = false) ∧
    (busyState.rst = false ∧ busyState.err = false ∧ busyState.busy = true) ∧ (errorState.rst = false ∧ errorState.err = true) := by decide

theorem witness_InitStartsAFreshMessage :
    (errorState.rst = false ∧ errorState.busy = false) ∧ (busyState.rst = false ∧ busyState.busy = true ∧ busyState.err = false) ∧
    (busyErrorState.rst = false ∧ busyErrorState.busy = true ∧ busyErrorState.err = true) := by decide

/-- CNT = 59 and 60 with four bytes, CNT = 62 and 63 with one: on both sides of a complete block. -/
theorem witness_AbsorbTakesLanesInOrder :
    (errorState.rst = false ∧ errorState.err = true) ∧ (busyState.rst = false ∧ busyState.err = false ∧ busyState.busy = true) ∧
    ∀ n, n ∈ [59, 60, 62, 63] →
      (partialState n).rst = false ∧ (partialState n).err = false ∧ (partialState n).busy = false ∧ (partialState n).buf.length ≤ 63 ∧
      ((partialState n).buf.length + ((if n < 62 then 3 else 0 : BitVec 2).toNat + 1) < 64 ↔ n = 59 ∨ n = 62) := by decide

/-- CNT = 0, 55, 56 and 63: the ends of both cases. -/
theorem witness_FinishQueuesThePaddedTail :
    ∀ n, n ∈ [0, 55, 56, 63] →
      (partialState n).rst = false ∧ (partialState n).err = false ∧ (partialState n).busy = false ∧ (partialState n).buf.length = n := by decide

theorem witness_WriteToCmdPerformsTheCommand :
    decodeCommand 0x32 = .ok (.absorb 3) ∧ decodeCommand 0x00 = .ok .nop ∧
    State.reset.rst = false ∧ State.reset.err = false ∧ State.reset.busy = false := ⟨rfl, rfl, rfl, rfl, rfl⟩

theorem witness_DataInHoldsTheValueWritten :
    (State.reset.rst = false ∧ State.reset.err = false ∧ State.reset.busy = false) ∧
    (busyState.rst = false ∧ busyState.err = false ∧ busyState.busy = true) ∧ (errorState.rst = false ∧ errorState.err = true) ∧
    nextOf (exec .init (partialState 5)) = some (acceptInit (partialState 5)) ∧
    nextOf (exec (.absorb 0) (partialState 5)) = some (acceptAbsorb 0 (partialState 5)) := by decide

theorem witness_WritesLeaveTheRestAlone :
    isRead .init = false ∧ exec .init State.reset = .next (acceptInit State.reset) ∧
    isRead (.wrDataIn 4 7) = false ∧ exec (.wrDataIn 4 7) State.reset = .next (storeDataIn 7 State.reset) ∧
    isRead (.wrCmd 4 4) = false ∧ exec (.wrCmd 4 4) State.reset = .next (raiseError .illegal State.reset) := ⟨rfl, rfl, rfl, rfl, rfl, rfl⟩

theorem witness_BusyShowsWithinTheAcceptingWrite :
    ∀ n, n ∈ [0, 60, 63] →
      (partialState n).rst = false ∧ (partialState n).err = false ∧ (partialState n).busy = false ∧ (partialState n).buf.length ≤ 63 ∧
      (nextOf (exec .finish (partialState n))).isSome = true ∧ (nextOf (exec (.absorb 3) (partialState n))).isSome = true := by decide +kernel

theorem witness_AbsorbIgnoresTheOtherLanes :
    (∀ j, j ≤ (1 : BitVec 2).toNat → (0xFFFF6261 : Word).extractLsb' (8 * j) 8 = (partialState 3).dataIn.extractLsb' (8 * j) 8) ∧
    exec (.absorb 1) (partialState 3) = .next (acceptAbsorb 1 (partialState 3)) := by
  refine ⟨?_, rfl⟩
  intro j hj
  have : j = 0 ∨ j = 1 := by
    have : (1 : BitVec 2).toNat = 1 := rfl
    omega
  rcases this with rfl | rfl <;> decide

theorem witness_ReadsChangeNoState :
    isRead (.rdStatus 4) = true ∧ isRead (.rdDigest3 4) = true ∧ isDigestRead (.rdDigest3 4) = true ∧ busyState.busy = true := by decide

theorem witness_StatusFieldsAreExact :
    (partialState 63).rst = false ∧ (partialState 63).buf.length ≤ 63 ∧ (partialState 63).err = false ∧ (partialState 63).busy = false ∧
    busyErrorState.rst = false ∧ busyErrorState.buf.length ≤ 63 := by decide

theorem witness_DigestReadsReturnH :
    (State.reset.rst = false ∧ State.reset.busy = false) ∧ (activeState.rst = false ∧ activeState.busy = true) := by decide

theorem witness_BusyDigestReadRevealsNothingOfH :
    isDigestRead (.rdDigest0 4) = true ∧ isDigestRead (.rdDigest3 4) = true ∧ busyState.busy = true ∧
    exec (.rdDigest0 4) busyState = .next (freeDigestRead busyState) := ⟨by decide, by decide, by decide, rfl⟩

theorem witness_LenReadsReturnTheHalves : State.reset.rst = false ∧ busyState.rst = false := by decide

theorem witness_IdReadsTheConstant : State.reset.rst = false ∧ State.reset.err = false ∧ State.reset.busy = false := by decide

theorem witness_ReservedOffsetsAndCmdReadZero :
    Instr.rdCmd 4 ∈ [Instr.rdReserved0C 4, .rdReserved28 4, .rdReserved30 4, .rdReserved34 4, .rdReserved38 4, .rdReserved3C 4, .rdCmd 4] ∧
    (0x3C : Offset) ∈ ([0x0C, 0x28, 0x30, 0x34, 0x38, 0x3C] : List Offset) ∧
    State.reset.rst = false ∧ State.reset.err = false ∧ State.reset.busy = false := by decide

theorem witness_OnlyAlignedWordAccessesAct :
    (memRead 0x10 2).size ≠ 4 ∧ (memRead 0x12 4).off.toNat % 4 ≠ 0 ∧ (memWrite 0x08 8 5).size ≠ 4 ∧ (memWrite 0x09 4 5).off.toNat % 4 ≠ 0 ∧
    (memRead 0x10 2).write = false ∧ (memWrite 0x09 4 5).write = true ∧
    State.reset.rst = false ∧ State.reset.err = false ∧ State.reset.busy = false := by decide

/-- The least and the greatest amount, the lowest and the highest bit. -/
theorem witness_RotlMovesEveryBit : 1 ≤ 1 ∧ 31 ≤ 31 ∧ 0 < 32 ∧ 31 < 32 := by decide

/-- The ends of the four groups. -/
theorem witness_RoundFunctionsBitByBit : [0, 15, 16, 31, 32, 47, 48, 63].all (fun i => decide (i < 64)) = true ∧ 31 < 32 := by decide

theorem witness_EachGroupUsesEveryWordOnce : 63 < 64 ∧ 3 < 4 ∧ 15 < 16 ∧ wordIndex (16 * 3 + 15) = 9 := by decide

theorem witness_StartLoadsTheHeadBlock :
    busyState.rst = false ∧ busyState.active = false ∧ ∃ b rest, busyState.pend = b :: rest := ⟨rfl, rfl, _, _, rfl⟩

/-- RND = 0, RND = 62 and RND = 63. -/
theorem witness_RoundReplacesTheWorkingRegisters :
    (activeState.rst = false ∧ activeState.active = true ∧ activeState.rnd.val < 63) ∧
    (({ activeState with rnd := 62 } : State).rst = false ∧ ({ activeState with rnd := 62 } : State).active = true ∧ (62 : Fin 64).val < 63) ∧
    (({ activeState with rnd := 63 } : State).rst = false ∧ ({ activeState with rnd := 63 } : State).active = true) := by decide

theorem busyState_at (k : Nat) (hk : k ≤ 63) :
    (coreSteps (k + 1) busyState).rst = false ∧ (coreSteps (k + 1) busyState).active = true ∧
      (coreSteps (k + 1) busyState).rnd = Fin.ofNat 64 k := by
  rw [coreSteps_inBlock (s := busyState) rfl rfl rfl k hk]
  exact ⟨rfl, rfl, rfl⟩

/-- The last round of a message's last block, and of a block that ABSORB queued. -/
theorem witness_LastRoundEndsTheBlock :
    (lastRoundState.rst = false ∧ lastRoundState.active = true ∧ lastRoundState.rnd = 63) ∧
    (({ activeState with rnd := 63, fin := false } : State).rst = false ∧ ({ activeState with rnd := 63, fin := false } : State).active = true) :=
  ⟨busyState_at 63 (by omega), rfl, rfl⟩

theorem witness_CoreStepsExactlyWhenBusy : State.reset.rst = false ∧ busyState.rst = false ∧ busyState.busy = true := by decide

theorem witness_CoreStepsComputeCompress : busyState.rst = false ∧ busyState.active = false ∧ 64 < 65 * busyState.pend.length := by decide

theorem inv_busyState : busyState.Inv :=
  Inv_acceptFinish (s := State.reset) (Inv_applyReset false State.reset) rfl rfl (acceptFinish_eq State.reset)

theorem inv_lastRoundState : lastRoundState.Inv := by
  have h : ∀ n, (coreSteps n busyState).Inv := fun n => by
    induction n with
    | zero => exact inv_busyState
    | succ n ih => rw [coreSteps_succ_last]; exact Inv_coreStep ih
  exact h 64

theorem witness_CompressionEndsWithin130Steps :
    busyState.Inv ∧ busyState.busy = true ∧
    hostMove (withProgram [.access (memWrite 0x08 4 5)] busyState) = .next (raiseError .busy { busyState with program := [], turns := [.host] }) :=
  ⟨inv_busyState, by decide, rfl⟩

theorem witness_PaddingAlignsAndEncodesTheLength : ([0x61] : List Byte).length < 55 ∧ 55 + 8 < (pad [0x61]).length := by decide

theorem witness_SplitCutsConsecutiveBlocks :
    (List.replicate 128 (0 : Byte)).length % 64 = 0 ∧ ([] : List Byte).length % 64 = 0 := by simp

theorem witness_StreamingAgreesWithPadAndSplit : State.reset.buf = [] ∧ State.reset.len = 0 := by decide

theorem witness_DigestBytesAndHex : 3 < 4 ∧ (digestBytes iv)[15]? = some 0x10 ∧ '0' ∈ hexDigest iv := by decide

theorem inv_turns {s : State} (h : s.Inv) (ts : List Turn) : ({ s with turns := ts } : State).Inv :=
  Inv_of_sameCore h (SameCore_turns s ts) rfl

theorem endsBlock_core_turn (s : State) (hr : s.rst = false) (ha : s.active = true) (hn : s.rnd = 63) :
    ({ s with turns := [.core] } : State).endsBlock = true := by
  simp [State.endsBlock, nextTurn, hr, ha, hn]

theorem step_core_turn (s : State) : step { s with turns := [.core] } = .next (coreStep { s with turns := [] }) := rfl

theorem step_release_turn (s : State) : step { s with turns := [.releaseRst] } = .next (applyReset false { s with turns := [] }) := rfl

theorem witness_EveryStepKeepsTheInvariant :
    (busyState.Inv ∧ step busyState = .next activeState) ∧
    (lastRoundState.Inv ∧
      step { lastRoundState with turns := [.releaseRst] } = .next (applyReset false { lastRoundState with turns := [] })) :=
  ⟨⟨inv_busyState, rfl⟩, inv_lastRoundState, step_release_turn _⟩

/-- The step that finishes the first block. -/
theorem witness_DigestIsTheFoldOfFinishedBlocks :
    ({ lastRoundState with turns := [.core] } : State).Inv ∧ lastRoundState.h = compressAll [] iv ∧
    step { lastRoundState with turns := [.core] } = .next (coreStep { lastRoundState with turns := [] }) ∧
    ({ lastRoundState with turns := [.core] } : State).endsBlock = true := by
  have h := busyState_at 63 (by omega)
  refine ⟨inv_turns inv_lastRoundState _, ?_, step_core_turn _, ?_⟩
  · have := congrArg State.h (coreSteps_inBlock (s := busyState) rfl rfl rfl 63 (by omega))
    exact this
  · exact endsBlock_core_turn _ h.1 h.2.1 h.2.2

/-- INIT, and reset, from a digest that is not IV. -/
theorem witness_HIsWrittenInThreePlaces :
    let s := { State.reset with h := ⟨1, 2, 3, 4⟩ }
    (step (withProgram [.access (memWrite 0x00 4 1)] s) = .next (acceptInit { s with program := [], turns := [] }) ∧
      (acceptInit { s with program := [], turns := [] }).h ≠ s.h) ∧
    (step { s with turns := [.assertRst] } = .next (applyReset true s) ∧ (applyReset true s).h ≠ s.h) :=
  ⟨⟨rfl, by decide⟩, rfl, by decide⟩

/-- DONE set by the last round of a message, and cleared by FINISH. -/
theorem witness_DoneIsSetAndClearedAsStated :
    ({ activeState with rnd := 63 } : State).done = false ∧
    (nextOf (step { activeState with rnd := 63 })).map State.done = some true ∧
    ({ State.reset with done := true } : State).done = true ∧
    (nextOf (step (withProgram [.access (memWrite 0x00 4 3)] { State.reset with done := true }))).map State.done = some false := by decide

theorem witness_LenChangesOnlyAtAcceptance :
    (nextOf (step (withProgram [.access (memWrite 0x00 4 0x32)] State.reset))).map State.len = some 32 ∧ State.reset.len = 0 := by decide

theorem witness_ResetGivesEveryElementItsValue :
    nextTurn { activeState with turns := [.assertRst] } = .assertRst ∧ nextTurn { heldState with turns := [.releaseRst] } = .releaseRst ∧
    heldState.rst = true ∧ (memWrite 0x00 4 1).write = true ∧ (memRead 0x2C 4).write = false := by decide

theorem witness_InitAndResetReadAlike :
    (partialState 5).rst = false ∧ (partialState 5).busy = false ∧ isRead (.rdStatus 4) = true ∧ Instr.rdStatus 4 ≠ .rdDataIn 4 := by decide

/-- The message "abc". -/
theorem witness_UpdateFoldsCompressOverThePaddedMessage :
    let s := { State.reset with program := opsUpdate [0x61, 0x62, 0x63] }
    s.Inv ∧ s.ready = true ∧ s.betweenMessages = true ∧ s.turns = [] ∧ s.program = opsUpdate [0x61, 0x62, 0x63] :=
  ⟨Inv_of_sameCore (Inv_applyReset false State.reset) (SameCore_program State.reset _) rfl, rfl, rfl, rfl, rfl⟩

theorem witness_HashReadsTheDigestOfTheMessage :
    let s := { State.reset with program := opsHash [0x61, 0x62, 0x63] }
    s.Inv ∧ s.rst = false ∧ s.busy = false ∧ s.turns = [] ∧ s.program = opsHash [0x61, 0x62, 0x63] :=
  ⟨Inv_of_sameCore (Inv_applyReset false State.reset) (SameCore_program State.reset _) rfl, rfl, rfl, rfl, rfl⟩

end Sys2Proof.Tests
end

section
/-! The host's turn: a step whose mover is the host, when a transaction is next in its program (00_scope R12, 20_memory R58, 30_encoding R88). -/

namespace Sys2Proof.Machine

/-- The host's turn, whatever its program is and whether or not that turn was listed. -/
theorem step_of_host_turn {s : State} (hturn : nextTurn s = .host) :
    step s = hostMove { s with turns := s.turns.tail } := by
  rw [step, moveNext, hturn, move]

theorem hostMove_access {s : State} {r : Request} {rest : List HostOp} (hprog : s.program = .access r :: rest) :
    hostMove s = runRequest r { s with program := rest } := by
  simp only [hostMove, hprog]

theorem runRequest_of_decode {r : Request} {i : Instr} (hdec : decode r = .ok i) (s : State) :
    runRequest r s = exec i s := by
  simp only [runRequest, hdec]

/-- `step_access` without its default order of moves: any list of turns that gives the host the next one, and any BUSY. -/
theorem step_of_host_access {s : State} {r : Request} {rest : List HostOp} (hturn : nextTurn s = .host)
    (hprog : s.program = .access r :: rest) :
    step s = runRequest r { s with turns := s.turns.tail, program := rest } := by
  rw [step_of_host_turn hturn]
  exact hostMove_access hprog

/-- Settles O5: the host's turn runs its next request, and a request that decodes runs its instruction. -/
theorem stepRunsTheDecodedInstruction : Obligations.StepRunsTheDecodedInstruction := by
  intro s r rest i hturn hprog hdec
  rw [step_of_host_access hturn hprog, runRequest_of_decode hdec]

end Sys2Proof.Machine
end

section
/-! The acceptance of a command, the edges of reset and the end of a block as kinds of step: what each makes of the state, and that no other step touches H, DONE or LEN (10_state R22, R38, R41). -/

namespace Sys2Proof.Machine

/-! ### A write transaction that completes -/

/-- With ERR = 0 and BUSY = 0, a write that is no 32-bit write to CMD or DATA_IN is an ADDRESS error (60_exceptions R211). -/
theorem runRequest_badAddress {off : Offset} {size : Nat} {s : State} (v : Word) (hbad : badAddress off size = true)
    (hr : s.rst = false) (he : s.err = false) (hb : s.busy = false) :
    runRequest (memWrite off size v) s = .next (raiseError .address s) := by
  rw [runRequest_memWrite]
  apply busWrite_of_reject
  rw [checkWrite_of_ready _ _ _ ((ready_iff s).2 ⟨hr, hb, he⟩), if_pos hbad]

/-- What a write that completed did. -/
theorem runRequest_write_cases {r : Request} {s t : State} (hw : r.write = true) (h : runRequest r s = .next t) :
    t = s ∨ (∃ e, t = raiseError e s) ∨
    (∃ c, r = memWrite offCmd 4 (encodeCommand c) ∧ acceptCommand c s = .next t) ∨
    (∃ v, r = memWrite offDataIn 4 v ∧ t = storeDataIn v s) := by
  rw [memWrite_eta hw] at h ⊢
  cases hc : checkWrite r.off r.size r.wdata s with
  | ignore =>
    rw [runRequest_memWrite, busWrite_of_ignore hc] at h
    injection h with h
    exact .inl h.symm
  | reject e =>
    rw [runRequest_memWrite, busWrite_of_reject hc] at h
    injection h with h
    exact .inr (.inl ⟨e, h.symm⟩)
  | perform =>
    rcases performed_cases hc h with ⟨ho, hn, c, hv, ha⟩ | ⟨ho, hn, ht⟩
    · exact .inr (.inr (.inl ⟨c, by rw [ho, hn, hv], ha⟩))
    · exact .inr (.inr (.inr ⟨r.wdata, by rw [ho, hn], ht⟩))

theorem encode_write (i : Instr) : (encode i).write = !isRead i := by cases i <;> rfl

/-- WR_DATA_IN is the only row whose request is a write to DATA_IN. -/
theorem eq_wrDataIn_of_encode {i : Instr} {size : Nat} {v : Word} (h : encode i = memWrite offDataIn size v) :
    i = .wrDataIn size v := by
  cases i with
  | wrDataIn n u =>
    obtain ⟨-, hn, hu⟩ := memWrite_inj h
    rw [hn, hu]
  | _ => exact absurd h (by simp [encode, memWrite, memRead, offCmd, offDataIn])

/-! ### The acceptance of a command -/

/-- The next move is the acceptance of this command: the host writes its word, out of reset, with BUSY = 0, and with ERR = 0 unless it is INIT (60_exceptions R217). -/
def State.accepts (s : State) (c : Command) : Prop :=
  s.nextRequest = some (memWrite offCmd 4 (encodeCommand c)) ∧ s.busy = false ∧ s.rst = false ∧ (s.err = true → c = .init)

theorem acceptsInit_iff (s : State) : s.acceptsInit = true ↔ s.accepts .init := by
  unfold State.acceptsInit State.accepts
  cases s.nextRequest <;> simp [performsInit, and_assoc]

theorem nextRequest_eq_some {s : State} {r : Request} (h : s.nextRequest = some r) :
    nextTurn s = .host ∧ ∃ rest, s.program = .access r :: rest := by
  unfold State.nextRequest at h
  split at h
  · rename_i hn hp
    injection h with h
    exact ⟨hn, _, h ▸ hp⟩
  · cases h

/-- The step of an accepted command is that command's effect. -/
theorem acceptCommand_of_accepts {s t : State} {c : Command} (hc : s.accepts c) (h : step s = .next t) :
    ∃ p, acceptCommand c { s with turns := s.turns.tail, program := p } = .next t := by
  obtain ⟨hreq, hb, hr, he⟩ := hc
  obtain ⟨hn, rest, hp⟩ := nextRequest_eq_some hreq
  refine ⟨rest, ?_⟩
  rw [← h, step_of_host_access hn hp, runRequest_of_decode (decode_command c)]
  symm
  exact exec_toInstr_of_accepted c hr hb he

/-- Every command but NOP clears DONE (10_state R41). -/
theorem acceptCommand_done {c : Command} {s t : State} (hc : c ≠ .nop) (h : acceptCommand c s = .next t) : t.done = false := by
  cases c with
  | nop => exact absurd rfl hc
  | init => injection h with h; rw [← h]; rfl
  | absorb k => injection h with h; rw [← h]; exact (absorbAll_frame _ _).done
  | finish =>
    have h : acceptFinish s = .next t := h
    rw [acceptFinish_eq] at h
    injection h with h
    rw [← h]
    rfl

/-! ### The edges of reset and the end of a block -/

theorem eq_applyReset_of_movesReset {s t : State} (hm : s.movesReset = true) (h : step s = .next t) :
    ∃ level, t = applyReset level { s with turns := s.turns.tail } := by
  rcases step_cases s with ⟨hn, -⟩ | ⟨hn, -⟩ | ⟨level, -, hs⟩
  · simp [State.movesReset, hn] at hm
  · simp [State.movesReset, hn] at hm
  · rw [hs] at h
    injection h with h
    exact ⟨level, h.symm⟩

theorem endsBlock_iff (s : State) :
    s.endsBlock = true ↔ nextTurn s = .core ∧ s.rst = false ∧ s.active = true ∧ s.rnd = 63 := by
  simp [State.endsBlock, and_assoc]

/-- The step that ends a block (42_compressor R154). -/
theorem eq_endOfBlock_of_endsBlock {s t : State} (hend : s.endsBlock = true) (h : step s = .next t) :
    t = endOfBlock { s with turns := s.turns.tail, w := oneRound 63 s.x s.w } := by
  obtain ⟨hn, hr, ha, h63⟩ := (endsBlock_iff s).1 hend
  rw [step, moveNext, hn, move] at h
  injection h with h
  exact h.symm.trans (coreStep_last (s := { s with turns := s.turns.tail }) hr ha h63)

/-- Every step is an edge of reset, the acceptance of INIT, ABSORB or FINISH, the end of a block, or a step that leaves H, DONE and LEN alone. -/
theorem step_effect_cases {s t : State} (h : step s = .next t) :
    (s.movesReset = true ∧ ∃ level, t = applyReset level { s with turns := s.turns.tail }) ∨
    (∃ c p, c ≠ .nop ∧ s.accepts c ∧ acceptCommand c { s with turns := s.turns.tail, program := p } = .next t) ∨
    (s.endsBlock = true ∧ t = endOfBlock { s with turns := s.turns.tail, w := oneRound 63 s.x s.w }) ∨
    (t.h = s.h ∧ t.done = s.done ∧ t.len = s.len) := by
  rcases step_inversion h with ⟨-, hc, -⟩ | ⟨-, -, -, hc, -⟩ | ⟨hr, hb, c, p, hreq, he, ha⟩ | ⟨-, -, -, -, v, p, -, rfl⟩ |
    ⟨hn, rfl⟩ | hreset
  · exact .inr (.inr (.inr ⟨hc.h, hc.done, hc.len⟩))
  · exact .inr (.inr (.inr ⟨hc.h, hc.done, hc.len⟩))
  · by_cases hnop : c = .nop
    · subst hnop
      injection ha with ha
      exact .inr (.inr (.inr (by rw [← ha]; exact ⟨rfl, rfl, rfl⟩)))
    · exact .inr (.inl ⟨c, p, hnop, ⟨hreq, hb, hr, he⟩, ha⟩)
  · exact .inr (.inr (.inr ⟨rfl, rfl, rfl⟩))
  · rcases coreStep_cases { s with turns := s.turns.tail } with
      ⟨hs, -⟩ | ⟨-, -, b, rest, -, hs⟩ | ⟨-, -, -, hs⟩ | ⟨hr, ha, h63, -⟩
    · exact .inr (.inr (.inr (by rw [hs]; exact ⟨rfl, rfl, rfl⟩)))
    · exact .inr (.inr (.inr (by rw [hs]; exact ⟨rfl, rfl, rfl⟩)))
    · exact .inr (.inr (.inr (by rw [hs]; exact ⟨rfl, rfl, rfl⟩)))
    · exact .inr (.inr (.inl ⟨(endsBlock_iff s).2 ⟨hn, hr, ha, h63⟩, coreStep_last hr ha h63⟩))
  · exact .inl hreset

end Sys2Proof.Machine
end

section
/-! The invariant at reset and over every step, and what writes H, DONE and LEN (10_state R22, R23, R38, R41). -/

namespace Sys2Proof.Machine

/-! ### The invariant -/

/-- Settles O49: the state after reset is what the release of reset leaves. -/
theorem resetStateMeetsTheInvariant : Obligations.ResetStateMeetsTheInvariant :=
  Inv_applyReset false State.reset

theorem Inv_host {s : State} (hi : s.Inv) (ts : List Turn) (p : List HostOp) :
    ({ s with turns := ts, program := p } : State).Inv :=
  Inv_of_sameCore (Inv_of_sameCore hi (SameCore_turns s ts) rfl) (SameCore_program _ p) rfl

/-- A state whose only difference is a recorded error is, as a core, what raising that error leaves (60_exceptions R212). -/
theorem SameCore_raiseError {s t : State} {e : ErrorCode} (h : s.SameButError t) (herr : t.err = true)
    (hcode : t.errcode = errorNumber e) : (raiseError e s).SameCore t :=
  ⟨⟨h.h, h.w, h.x, h.rnd, h.active, h.pend, h.buf, h.len, h.fin, h.dataIn, h.done⟩, herr, hcode⟩

/-- Settles O50: each kind of step of `step_inversion` keeps the invariant. -/
theorem everyStepKeepsTheInvariant : Obligations.EveryStepKeepsTheInvariant := by
  intro s t hi h
  rcases step_inversion h with ⟨-, hc, hrst⟩ | ⟨-, -, hr, hc, hrst, herr, e, he, hcode⟩ | ⟨hr, hb, c, p, -, -, ha⟩ |
    ⟨-, hr, -, -, v, p, -, rfl⟩ | ⟨-, rfl⟩ | ⟨-, level, rfl⟩
  · exact Inv_of_sameCore hi hc hrst
  · exact Inv_of_sameCore (Inv_raiseError hi hr he) (SameCore_raiseError hc herr hcode) hrst
  · exact Inv_acceptCommand c (Inv_host hi _ p) hr hb ha
  · exact Inv_storeDataIn v (Inv_host hi _ p) hr
  · exact Inv_coreStep (Inv_of_sameCore hi (SameCore_turns s _) rfl)
  · exact Inv_applyReset level _

/-! ### What H is -/

/-- The last round of the head block turns H into `compress` of it (42_compressor R151, R154). -/
theorem addQuad_lastRound {s : State} (hi : s.Inv) (ha : s.active = true) (h63 : s.rnd = 63) :
    ∃ b, s.pend.take 1 = [b] ∧ addQuad s.h (oneRound 63 s.x s.w) = compress b s.h := by
  obtain ⟨b, rest, hp⟩ := List.exists_cons_of_ne_nil (hi.activePending ha)
  have hx : s.x = wordsOf b := hi.activeLatch ha b (by rw [hp]; rfl)
  have hw : s.w = firstRounds (wordsOf b) s.h 63 := by
    rw [hi.activeRounds ha, hx, h63]
    rfl
  refine ⟨b, by rw [hp]; rfl, ?_⟩
  rw [hx, hw]
  rfl

theorem finishedAfter_of_cleared (finished : List Block) {s : State} (h : s.movesReset = true ∨ s.acceptsInit = true) :
    finishedAfter finished s = [] :=
  if_pos (by simpa using h)

/-- Settles O51: by the kind of step, and at the end of a block by the invariant's account of X and W. -/
theorem digestIsTheFoldOfFinishedBlocks : Obligations.DigestIsTheFoldOfFinishedBlocks := by
  refine ⟨rfl, fun finished s t hi hs h => ?_⟩
  by_cases hreset : s.movesReset = true
  · obtain ⟨level, rfl⟩ := eq_applyReset_of_movesReset hreset h
    rw [finishedAfter_of_cleared _ (.inl hreset)]
    rfl
  by_cases hinit : s.acceptsInit = true
  · obtain ⟨p, ha⟩ := acceptCommand_of_accepts ((acceptsInit_iff s).1 hinit) h
    injection ha with ha
    rw [finishedAfter_of_cleared _ (.inr hinit), ← ha]
    rfl
  have hkeep : finishedAfter finished s = if s.endsBlock then finished ++ s.pend.take 1 else finished :=
    if_neg (by simp [hreset, hinit])
  rw [hkeep]
  by_cases hend : s.endsBlock = true
  · obtain ⟨-, -, ha, h63⟩ := (endsBlock_iff s).1 hend
    obtain ⟨b, hb, hsum⟩ := addQuad_lastRound hi ha h63
    rw [eq_endOfBlock_of_endsBlock hend h, if_pos hend, hb, compressAll_append, ← hs]
    exact hsum
  rw [if_neg hend, ← hs]
  rcases step_effect_cases h with ⟨hm, -⟩ | ⟨c, p, -, hacc, ha⟩ | ⟨he, -⟩ | ⟨hh, -⟩
  · exact absurd hm hreset
  · rcases acceptCommand_init_or ha with ⟨rfl, -⟩ | ⟨-, hh, -⟩
    · exact absurd ((acceptsInit_iff s).2 hacc) hinit
    · exact hh
  · exact absurd he hend
  · exact hh

/-- Settles O52: the kinds of step of `step_effect_cases`, and of the commands INIT alone writes H. -/
theorem hIsWrittenInThreePlaces : Obligations.HIsWrittenInThreePlaces := by
  intro s t h hne
  rcases step_effect_cases h with ⟨hm, level, rfl⟩ | ⟨c, p, -, hacc, ha⟩ | ⟨he, rfl⟩ | ⟨hh, -⟩
  · exact .inr (.inr ⟨hm, rfl⟩)
  · rcases acceptCommand_init_or ha with ⟨rfl, hiv, -⟩ | ⟨-, hh, -⟩
    · exact .inr (.inl ⟨(acceptsInit_iff s).2 hacc, hiv⟩)
    · exact absurd hh hne
  · exact .inl ⟨he, rfl⟩
  · exact absurd hh hne

/-! ### DONE and LEN -/

/-- Settles O53: the steps that are said to write DONE do so, and `step_effect_cases` leaves no other. -/
theorem doneIsSetAndClearedAsStated : Obligations.DoneIsSetAndClearedAsStated := by
  intro s t h accepted finished
  refine ⟨?_, ?_, fun hreset hacc hfin => ?_⟩
  · rintro (hm | ⟨c, hnop, hc⟩)
    · obtain ⟨level, rfl⟩ := eq_applyReset_of_movesReset hm h
      rfl
    · obtain ⟨p, ha⟩ := acceptCommand_of_accepts hc h
      exact acceptCommand_done hnop ha
  · rintro ⟨hend, hf, htail⟩
    simp [eq_endOfBlock_of_endsBlock hend h, finishesMessage, hf, htail]
  · rcases step_effect_cases h with ⟨hm, -⟩ | ⟨c, p, hnop, hc, -⟩ | ⟨hend, rfl⟩ | ⟨-, hd, -⟩
    · simp [hreset] at hm
    · exact absurd ⟨c, hnop, hc⟩ hacc
    · have hlast : ¬ (s.pend.tail = [] ∧ s.fin = true) := fun ⟨htail, hf⟩ => hfin ⟨hend, hf, htail⟩
      have : finishesMessage s = false := by simpa [finishesMessage] using hlast
      rw [endOfBlock_done]
      show (finishesMessage s || s.done) = s.done
      rw [this, Bool.false_or]
    · exact hd

/-- Settles O54: of the kinds of step of `step_effect_cases`, the end of a block keeps LEN. -/
theorem lenChangesOnlyAtAcceptance : Obligations.LenChangesOnlyAtAcceptance := by
  intro s t h hne
  rcases step_effect_cases h with ⟨hm, -⟩ | ⟨c, p, hnop, hc, -⟩ | ⟨-, rfl⟩ | ⟨-, -, hl⟩
  · exact .inl hm
  · exact .inr ⟨c, hnop, hc⟩
  · exact absurd rfl hne
  · exact absurd hl hne

end Sys2Proof.Machine
end

section
/-! The frame of the writes, and the values of the reads (10_state R22, R35, R37, R38, R40). -/

namespace Sys2Proof.Machine

/-! ### Writes -/

/-- Settles O22: what a write that completed did, and the frame of each of its four outcomes. -/
theorem writesLeaveTheRestAlone : Obligations.WritesLeaveTheRestAlone := by
  intro i s t hi h
  rw [exec_write i s hi] at h
  rcases runRequest_write_cases (by rw [encode_write, hi]; rfl) h with rfl | ⟨e, rfl⟩ | ⟨c, hc, ha⟩ | ⟨v, hv, rfl⟩
  · exact ⟨rfl, rfl, rfl, rfl, ⟨rfl, rfl, rfl⟩, rfl, rfl, .inl rfl, .inl rfl, .inr ⟨rfl, rfl, rfl, rfl, rfl⟩⟩
  · exact ⟨rfl, rfl, rfl, rfl, ⟨rfl, rfl, rfl⟩, rfl, rfl, .inl rfl, .inl rfl, .inr ⟨rfl, rfl, rfl, rfl, rfl⟩⟩
  · have f := acceptCommand_frame ha
    refine ⟨f.w, f.x, f.rnd, f.active, ⟨f.rst, f.program, f.turns⟩, f.reads, f.freeCount, ?_, .inl f.dataIn, ?_⟩
    · rcases acceptCommand_init_or ha with ⟨rfl, hiv, -⟩ | ⟨-, hh, -⟩
      · exact .inr ⟨hc, hiv⟩
      · exact .inl hh
    · by_cases hnop : c = .nop
      · subst hnop
        injection ha with ha
        rw [← ha]
        exact .inr ⟨rfl, rfl, rfl, rfl, rfl⟩
      · exact .inl ⟨c, hnop, hc⟩
  · exact ⟨rfl, rfl, rfl, rfl, ⟨rfl, rfl, rfl⟩, rfl, rfl, .inl rfl, .inr ⟨v, eq_wrDataIn_of_encode hv, rfl⟩,
      .inr ⟨rfl, rfl, rfl, rfl, rfl⟩⟩

/-! ### Reads -/

/-- A 32-bit read out of reset returns what its register reads (43_commands R177). -/
theorem busRead_word {s : State} (hr : s.rst = false) (v : Word) : busRead 4 v s = .next (returnValue v s) := by
  simp [busRead, readsZero, hr]

theorem digestRead_idle {s : State} (hr : s.rst = false) (hb : s.busy = false) (v : Word) :
    digestRead 4 v s = .next (returnValue v s) := by
  simp [digestRead, readsZero, hr, hb]

theorem digestRead_busy {s : State} (hr : s.rst = false) (hb : s.busy = true) (v : Word) :
    digestRead 4 v s = .next (freeDigestRead s) := by
  simp [digestRead, readsZero, hr, hb]

/-- Settles O27: one shared digest read, of each of the four registers. -/
theorem digestReadsReturnH : Obligations.DigestReadsReturnH := by
  intro s hr
  refine ⟨fun hb => ⟨digestRead_idle hr hb s.h.a, digestRead_idle hr hb s.h.b, digestRead_idle hr hb s.h.c,
    digestRead_idle hr hb s.h.d⟩, fun hb i hi => ?_⟩
  simp only [List.mem_cons, List.not_mem_nil, or_false] at hi
  rcases hi with rfl | rfl | rfl | rfl
  · exact digestRead_busy hr hb s.h.a
  · exact digestRead_busy hr hb s.h.b
  · exact digestRead_busy hr hb s.h.c
  · exact digestRead_busy hr hb s.h.d

/-- A DIGEST read is the shared digest read, of one register of H. -/
theorem exec_digestRead {i : Instr} (h : isDigestRead i = true) :
    ∃ (n : Nat) (register : Quad → Word), ∀ s, exec i s = digestRead n (register s.h) s := by
  cases i with
  | rdDigest0 n => exact ⟨n, Quad.a, fun _ => rfl⟩
  | rdDigest1 n => exact ⟨n, Quad.b, fun _ => rfl⟩
  | rdDigest2 n => exact ⟨n, Quad.c, fun _ => rfl⟩
  | rdDigest3 n => exact ⟨n, Quad.d, fun _ => rfl⟩
  | _ => simp [isDigestRead, encode, memWrite, memRead, offCmd, offDataIn] at h

/-- While BUSY = 1 neither H nor the register's value takes part in a digest read. -/
theorem digestRead_busy_h {n : Nat} {s t : State} {v : Word} (hb : s.busy = true) (h : digestRead n v s = .next t)
    (q : Quad) (u : Word) : digestRead n u { s with h := q } = .next { t with h := q } := by
  have hb' : ({ s with h := q } : State).busy = true := hb
  have hz : readsZero n { s with h := q } = readsZero n s := rfl
  rcases digestRead_cases n v s with ⟨hz0, hd⟩ | ⟨hz0, -, hd⟩ | ⟨-, hidle, -⟩
  · rw [hd] at h
    injection h with h
    rw [digestRead, if_pos (hz.trans hz0), ← h]
    rfl
  · rw [hd] at h
    injection h with h
    rw [digestRead, if_neg (by simp [hz, hz0]), if_pos hb', ← h]
    rfl
  · simp [hb] at hidle

/-- Settles O28: the read takes H only through the register's value, which it does not return while BUSY = 1. -/
theorem busyDigestReadRevealsNothingOfH : Obligations.BusyDigestReadRevealsNothingOfH := by
  intro i s t q hi hb h
  obtain ⟨n, register, hx⟩ := exec_digestRead hi
  rw [hx] at h ⊢
  exact digestRead_busy_h hb h q _

theorem lenHi_append_lenLo (len : DWord) : lenHi len ++ lenLo len = len :=
  (BitVec.extractLsb'_append_extractLsb'_eq_extractLsb' (start₁ := 0) (len₁ := 32) rfl).trans BitVec.extractLsb'_eq_self

/-- Settles O29: the two words read are the halves that make up LEN. -/
theorem lenReadsReturnTheHalves : Obligations.LenReadsReturnTheHalves := fun s hr =>
  ⟨lenLo s.len, lenHi s.len, lenHi_append_lenLo s.len, busRead_word hr _, busRead_word hr _⟩

/-- Settles O30: the constant's read, its lanes by evaluation, and a write to an offset that is not writable. -/
theorem idReadsTheConstant : Obligations.IdReadsTheConstant :=
  ⟨fun _ hr => busRead_word hr idValue, by decide, fun _ v hr he hb => runRequest_badAddress v (by decide) hr he hb⟩

/-! ### The fields of STATUS (10_state R35) -/

theorem getLsbD_flagWord (b : Bool) (k : Nat) : (flagWord b).getLsbD k = (decide (k = 0) && b) := by
  cases k <;> simp [flagWord]

/-- A flag put into STATUS is bit n. -/
theorem getLsbD_flagWord_shiftLeft (b : Bool) (n k : Nat) (hk : k < 32) :
    (flagWord b <<< n).getLsbD k = (decide (k = n) && b) := by
  rw [BitVec.getLsbD_shiftLeft, getLsbD_flagWord]
  rcases Nat.lt_trichotomy k n with h | rfl | h
  · simp [h, Nat.ne_of_lt h]
  · simp [hk]
  · have : k ≠ n ∧ k - n ≠ 0 := by omega
    simp [this]

/-- STATUS bit by bit, the or of its five fields, each shifted into its place. -/
theorem getLsbD_statusWord (s : State) (k : Nat) (hk : k < 32) :
    s.statusWord.getLsbD k =
      ((decide (8 ≤ k) && s.cnt.getLsbD (k - 8)) || (decide (4 ≤ k) && s.errcode.getLsbD (k - 4)) ||
        (decide (k = 2) && s.err) || (decide (k = 1) && s.done) || (decide (k = 0) && s.busy)) := by
  have shifted : k - 8 < 32 ∧ k - 4 < 32 := by omega
  simp only [State.statusWord, BitVec.getLsbD_or, getLsbD_flagWord_shiftLeft _ _ _ hk, getLsbD_flagWord]
  simp only [BitVec.getLsbD_shiftLeft, BitVec.getLsbD_setWidth, hk, shifted, decide_true, Bool.true_and, ← Nat.not_lt,
    decide_not]

/-- Bits 7:4 of STATUS hold ERRCODE alone: CNT stands above them, the flags below. -/
theorem getLsbD_statusWord_errcode (s : State) {j : Nat} (hj : j < 4) : s.statusWord.getLsbD (4 + j) = s.errcode.getLsbD j := by
  have place : ¬ 8 ≤ 4 + j ∧ 4 + j ≠ 0 ∧ 4 + j ≠ 1 ∧ 4 + j ≠ 2 := by omega
  rw [getLsbD_statusWord s _ (by omega)]
  simp [place]

/-- The bits of STATUS from 8 up hold CNT alone. -/
theorem getLsbD_statusWord_cnt (s : State) {j : Nat} (hj : j < 24) : s.statusWord.getLsbD (8 + j) = s.cnt.getLsbD j := by
  have aboveErrcode : s.errcode.getLsbD (8 + j - 4) = false := BitVec.getLsbD_of_ge _ _ (by omega)
  have place : 8 + j ≠ 0 ∧ 8 + j ≠ 1 ∧ 8 + j ≠ 2 := by omega
  rw [getLsbD_statusWord s _ (by omega)]
  simp [place, aboveErrcode]

theorem statusWord_errcode (s : State) : s.statusWord.extractLsb' 4 4 = s.errcode :=
  BitVec.eq_of_getLsbD_eq fun j hj => by simp [hj, getLsbD_statusWord_errcode s hj]

theorem statusWord_cnt (s : State) : s.statusWord.extractLsb' 8 6 = s.cnt :=
  BitVec.eq_of_getLsbD_eq fun j hj => by simp [hj, getLsbD_statusWord_cnt s (show j < 24 by omega)]

theorem statusWord_high (s : State) : s.statusWord.extractLsb' 14 18 = 0 :=
  BitVec.eq_of_getLsbD_eq fun j hj => by
    have bit : s.statusWord.getLsbD (14 + j) = s.cnt.getLsbD (6 + j) := by
      have := getLsbD_statusWord_cnt s (show 6 + j < 24 by omega)
      rwa [← Nat.add_assoc] at this
    simp [bit]

/-- The 6-bit field holds the whole of CNT, which is at most 63 (10_state R28). -/
theorem cnt_toNat {s : State} (h : s.buf.length ≤ 63) : s.cnt.toNat = s.buf.length := by
  rw [State.cnt, BitVec.toNat_ofNat]
  omega

theorem busy_eq (s : State) : s.busy = (s.active || decide (s.pend ≠ [])) := by
  cases hp : s.pend <;> simp [State.busy, hp]

/-- Settles O26: each field's own lemma, and for a write an offset that is not writable. -/
theorem statusFieldsAreExact : Obligations.StatusFieldsAreExact := by
  intro s hr hbuf
  refine ⟨⟨s.statusWord, busRead_word hr _, ?_, ?_, ?_, ?_, statusWord_errcode s, ?_, statusWord_high s⟩,
    fun he hb v => runRequest_badAddress v (by decide) hr he hb⟩
  · rw [getLsbD_statusWord s 0 (by omega), ← busy_eq]
    simp
  · rw [getLsbD_statusWord s 1 (by omega)]
    simp
  · rw [getLsbD_statusWord s 2 (by omega)]
    simp
  · rw [getLsbD_statusWord s 3 (by omega)]
    simp
  · rw [statusWord_cnt, cnt_toNat hbuf]

end Sys2Proof.Machine
end

section
/-! The register window and its accesses: which byte addresses reach the core, what every read returns and leaves alone, and the accesses that do not act (20_memory R50 to R54). -/

namespace Sys2Proof.Machine

/-! ### The window (20_memory R50, R57) -/

theorem offsetOf_laneAddress_zero (off : Offset) : offsetOf (laneAddress off 0) = some off := by
  have hoff := off.isLt
  have inside : Config.base ≤ laneAddress off 0 ∧ laneAddress off 0 < Config.base + 64 := by
    unfold laneAddress
    omega
  rw [offsetOf, if_pos inside, laneAddress, Nat.add_zero, Nat.add_sub_cancel_left, BitVec.ofNat_toNat, BitVec.setWidth_eq]

theorem offsetOf_eq_none {addr : Nat} (h : addr < Config.base ∨ Config.base + 64 ≤ addr) : offsetOf addr = none :=
  if_neg (by omega)

/-- Settles O4: the offset of an address inside the window, and that an address outside has none. -/
theorem windowIsSixtyFourBytesAtBase : Obligations.WindowIsSixtyFourBytesAtBase :=
  ⟨fun _ off _ _ => by rw [requestAt, offsetOf_laneAddress_zero]; rfl,
    fun _ _ _ _ h => by rw [requestAt, offsetOf_eq_none h]; rfl⟩

/-! ### Reads (20_memory R52) -/

/-- A register that reads 0 returns 0 even where a read returns 0 anyway: of any size, in reset or not. -/
theorem busRead_zero (size : Nat) (s : State) : busRead size 0 s = .next (returnValue 0 s) := by
  rw [busRead_eq, ite_self]

theorem busRead_of_readsZero {size : Nat} {s : State} (h : readsZero size s = true) (v : Word) :
    busRead size v s = .next (returnValue 0 s) := by
  rw [busRead_eq, if_pos h]

/-- But for the free value of a DIGEST read while BUSY = 1, a digest register is read like any other (10_state R37). -/
theorem digestRead_eq_busRead {size : Nat} {s : State} (h : readsZero size s = true ∨ s.busy = false) (v : Word) :
    digestRead size v s = busRead size v s := by
  rw [busRead_eq]
  rcases digestRead_cases size v s with ⟨hz, hd⟩ | ⟨hz, hb, -⟩ | ⟨hz, -, hd⟩
  · rw [hd, if_pos hz]
  · simp [hz, hb] at h
  · rw [hd, if_neg (by simp [hz])]

theorem busy_of_sameCore {s t : State} (h : s.SameCore t) : t.busy = s.busy := by
  rw [State.busy, h.active, h.pend, State.busy]

/-- Every read is the shared read of a value that only the core's state decides, or a DIGEST read that returns the free value. -/
theorem exec_read_busRead_or_free (i : Instr) (s : State) (hi : isRead i = true) :
    (∃ v, ∀ t, s.SameCore t → t.rst = s.rst → exec i t = busRead (encode i).size v t) ∨
    (readsZero (encode i).size s = false ∧ isDigestRead i = true ∧ s.busy = true ∧ exec i s = .next (freeDigestRead s)) := by
  rcases exec_read_cases i s hi with ⟨_, v, rfl, -, hx⟩ | ⟨_, v, rfl, hd, hx⟩
  · exact .inl ⟨v, fun t hc _ => hx t hc⟩
  · rcases digestRead_cases (encode i).size v s with ⟨hz, -⟩ | ⟨hz, hb, hfree⟩ | ⟨-, hb, -⟩
    · refine .inl ⟨v, fun t hc hr => ?_⟩
      have hz' : readsZero (encode i).size t = true := by rwa [readsZero, hr]
      rw [hx t hc, digestRead_eq_busRead (.inl hz')]
    · exact .inr ⟨hz, hd, hb, by rw [hx s (SameCore_refl s), hfree]⟩
    · exact .inl ⟨v, fun t hc _ => by rw [hx t hc, digestRead_eq_busRead (.inr (by rw [busy_of_sameCore hc, hb]))]⟩

/-- Settles O25: what a read returns is decided by the core and `rst`, which the read leaves as they were, so the second read returns it again. -/
theorem readsChangeNoState : Obligations.ReadsChangeNoState := by
  intro i s hi
  rcases exec_read_busRead_or_free i s hi with ⟨v, hx⟩ | ⟨-, hd, hb, hx⟩
  · have first := hx s (SameCore_refl s) rfl
    have again := hx _ (SameCore_returnValue s (if readsZero (encode i).size s then 0 else v)) rfl
    exact ⟨_, _, first, rfl, SameCore_returnValue _ _, ⟨rfl, rfl, rfl⟩, .inl rfl, .inr ⟨_, again, rfl⟩⟩
  · exact ⟨_, _, hx, rfl, SameCore_freeDigestRead s, ⟨rfl, rfl, rfl⟩, .inr ⟨hd, hb, rfl⟩, .inl ⟨hd, hb⟩⟩

/-! ### Accesses that do not act (20_memory R51, R53, R54) -/

/-- A read that has a row is at an aligned offset, and the row is that offset's, of the read's size. -/
theorem decodeRead_ok {off : Offset} {size : Nat} {i : Instr} (h : decodeRead off size = .ok i) :
    off.toNat % 4 = 0 ∧ encode i = memRead off size := by
  have hself : off = BitVec.ofNat 6 off.toNat := by simp
  unfold decodeRead at h
  split at h
  case h_17 => cases h
  all_goals
    rename_i hoff
    injection h with h
    refine ⟨by rw [hoff], ?_⟩
    rw [← h, hself, hoff]
    rfl

/-- A read of another size or alignment returns 0: it is of no row, or its row's size is not 4. -/
theorem runRequest_read_zero {r : Request} (hw : r.write = false) (h : r.size ≠ 4 ∨ r.off.toNat % 4 ≠ 0) (s : State) :
    runRequest r s = .next (returnValue 0 s) := by
  rcases runRequest_read r hw s with ⟨i, hdec, hi, hx⟩ | ⟨-, hx⟩
  · obtain ⟨haligned, henc⟩ := decodeRead_ok (off := r.off) (size := r.size) (by simpa [decode, hw] using hdec)
    have hzero : readsZero (encode i).size s = true := by
      have : r.size ≠ 4 := h.resolve_right (not_not.2 haligned)
      simp [henc, memRead, readsZero, this]
    rw [hx]
    rcases exec_read_busRead_or_free i s hi with ⟨v, hv⟩ | ⟨hnz, -⟩
    · rw [hv s (SameCore_refl s) rfl, busRead_of_readsZero hzero]
    · simp [hzero] at hnz
  · exact hx

/-- The causes of an ADDRESS error (60_exceptions R211); a misaligned offset is one other than CMD and DATA_IN. -/
theorem badAddress_iff (off : Offset) (size : Nat) :
    badAddress off size = true ↔ size ≠ 4 ∨ (off ≠ offCmd ∧ off ≠ offDataIn) := by
  rw [← Bool.not_eq_false, badAddress_eq_false_iff]
  tauto

theorem badAddress_of_misaligned {off : Offset} (size : Nat) (h : off.toNat % 4 ≠ 0) : badAddress off size = true := by
  simp [badAddress, h]

/-- `runRequest_badAddress` of a request that is given by its fields. -/
theorem runRequest_write_badAddress {r : Request} {s : State} (hw : r.write = true) (hbad : badAddress r.off r.size = true)
    (hr : s.rst = false) (he : s.err = false) (hb : s.busy = false) :
    runRequest r s = .next (raiseError .address s) := by
  rw [memWrite_eta hw]
  exact runRequest_badAddress r.wdata hbad hr he hb

/-- Settles O32: a read of another size or alignment returns 0, and a write of one is an ADDRESS error. -/
theorem onlyAlignedWordAccessesAct : Obligations.OnlyAlignedWordAccessesAct := by
  refine fun r s h => ⟨fun hw => runRequest_read_zero hw h s, fun hw hr he hb => ?_⟩
  have hbad : badAddress r.off r.size = true := by
    rcases h with hsize | hmis
    · exact (badAddress_iff _ _).2 (.inl hsize)
    · exact badAddress_of_misaligned _ hmis
  exact runRequest_write_badAddress hw hbad hr he hb

/-- Settles O7: the host's turn runs the request, a misaligned read or a write to an offset that is not writable. -/
theorem stepOfATransactionOfNoRow : Obligations.StepOfATransactionOfNoRow := by
  intro s r rest hturn hprog
  rw [step_of_host_access hturn hprog]
  refine ⟨fun hw hmis => runRequest_read_zero hw (.inr hmis) _, fun hw hcmd hdata hr he hb => ?_⟩
  exact runRequest_write_badAddress hw ((badAddress_iff _ _).2 (.inr ⟨hcmd, hdata⟩)) hr he hb

/-- Settles O31: each of these registers reads 0, and no reserved offset is writable. -/
theorem reservedOffsetsAndCmdReadZero : Obligations.ReservedOffsetsAndCmdReadZero := by
  refine fun s => ⟨fun i hi => ?_, fun hr he hb off v hoff => ?_⟩
  · simp only [List.mem_cons, List.not_mem_nil, or_false] at hi
    rcases hi with rfl | rfl | rfl | rfl | rfl | rfl | rfl <;> exact busRead_zero 4 s
  · have reserved : ∀ o ∈ ([0x0C, 0x28, 0x30, 0x34, 0x38, 0x3C] : List Offset), badAddress o 4 = true := by decide
    exact runRequest_badAddress v (reserved off hoff) hr he hb

end Sys2Proof.Machine
end

section
/-! Decoder and encoder as inverses, the legal command words, and the steps that run a table word, a WAIT or an ABSORB (30_encoding R80 to R90). -/

namespace Sys2Proof.Machine

/-! ### Decode and encode (30_encoding R85, R88, R90) -/

theorem encode_toInstr (c : Command) : encode c.toInstr = memWrite offCmd 4 (encodeCommand c) := by cases c <;> rfl

theorem toInstr_wellFormed (c : Command) : c.toInstr.wellFormed = true := by cases c <;> rfl

theorem wellFormed_of_isRead {i : Instr} (h : isRead i = true) : i.wellFormed = true := by
  cases i with
  | wrCmd => simp [isRead] at h
  | _ => rfl

/-- A write to CMD decodes to the command whose word it writes, or to a WR_CMD that writes no command's word. -/
theorem decodeCmdWrite_cases (size : Nat) (v : Word) :
    (∃ c, size = 4 ∧ v = encodeCommand c ∧ decodeCmdWrite size v = c.toInstr) ∨
    ((Instr.wrCmd size v).wellFormed = true ∧ decodeCmdWrite size v = .wrCmd size v) := by
  by_cases hsize : size = 4
  · rcases decodeCommand_cases v with ⟨-, c, hc, hv⟩ | ⟨hlegal, e, he⟩
    · exact .inl ⟨c, hsize, hv.symm, by simp [decodeCmdWrite, hsize, hc]⟩
    · exact .inr ⟨by simp [Instr.wellFormed, hlegal], by simp [decodeCmdWrite, hsize, he]⟩
  · exact .inr ⟨by simp [Instr.wellFormed, hsize], by simp [decodeCmdWrite, hsize]⟩

theorem decode_encode {i : Instr} (h : i.wellFormed = true) : decode (encode i) = .ok i := by
  cases i with
  | nop => exact decode_command .nop
  | init => exact decode_command .init
  | absorb k => exact decode_command (.absorb k)
  | finish => exact decode_command .finish
  | wrCmd size v =>
    show Except.ok (decodeCmdWrite size v) = _
    rcases decodeCmdWrite_cases size v with ⟨c, rfl, rfl, -⟩ | ⟨-, hd⟩
    · simp [Instr.wellFormed, legalCommand_encodeCommand] at h
    · rw [hd]
  | _ => rfl

theorem decodeWrite_ok {off : Offset} {size : Nat} {v : Word} {i : Instr} (h : decodeWrite off size v = .ok i) :
    i.wellFormed = true ∧ encode i = memWrite off size v := by
  unfold decodeWrite at h
  split at h
  · rename_i hcmd
    injection h with h
    subst h
    rcases decodeCmdWrite_cases size v with ⟨c, rfl, rfl, hd⟩ | ⟨hwf, hd⟩
    · rw [hd, hcmd]
      exact ⟨toInstr_wellFormed c, encode_toInstr c⟩
    · rw [hd, hcmd]
      exact ⟨hwf, rfl⟩
  · split at h
    · rename_i hdata
      injection h with h
      rw [← h, hdata]
      exact ⟨rfl, rfl⟩
    · cases h

theorem decodeRead_wellFormed {off : Offset} {size : Nat} {i : Instr} (h : decodeRead off size = .ok i) :
    i.wellFormed = true := by
  apply wellFormed_of_isRead
  have hwrite := encode_write i
  rw [(decodeRead_ok h).2] at hwrite
  simpa [memRead] using hwrite.symm

/-- Settles O1: one way by the instruction, the other by the direction of the request. -/
theorem decodeOfEncodeIsTheInstruction : Obligations.DecodeOfEncodeIsTheInstruction := by
  refine ⟨fun i hi => decode_encode hi, fun r i h => ?_⟩
  obtain ⟨write, off, size, wdata⟩ := r
  cases write with
  | true => exact decodeWrite_ok h
  | false => exact ⟨decodeRead_wellFormed h, (decodeRead_ok h).2⟩

/-! ### The legal command words (30_encoding R82, R85, 60_exceptions R214) -/

theorem legalCommand_iff_decodes (v : Word) : legalCommand v = true ↔ ∃ c, decodeCommand v = .ok c := by
  rcases decodeCommand_cases v with ⟨hlegal, c, hc, -⟩ | ⟨hlegal, e, he⟩
  · exact iff_of_true hlegal ⟨c, hc⟩
  · exact iff_of_false (by simp [hlegal]) (by simp [he])

theorem encodeCommand_of_decodeCommand {v : Word} {c : Command} (h : decodeCommand v = .ok c) : encodeCommand c = v := by
  rcases decodeCommand_cases v with ⟨-, d, hd, hv⟩ | ⟨-, e, he⟩
  · rw [h] at hd
    injection hd with hd
    rw [hd, hv]
  · simp [h] at he

theorem legalCommand_iff_encodes (v : Word) : legalCommand v = true ↔ ∃ c, encodeCommand c = v := by
  rw [legalCommand_iff_decodes]
  refine exists_congr fun c => ⟨encodeCommand_of_decodeCommand, ?_⟩
  rintro rfl
  exact decodeCommand_encodeCommand c

/-- The words of R85, one for each command and each count of ABSORB. -/
theorem mem_seven_iff_encodes (v : Word) :
    v ∈ ([0x00, 0x01, 0x02, 0x12, 0x22, 0x32, 0x03] : List Word) ↔ ∃ c, encodeCommand c = v := by
  constructor
  · have words : ([0x00, 0x01, 0x02, 0x12, 0x22, 0x32, 0x03] : List Word) =
        [Command.nop, .init, .absorb 0, .absorb 1, .absorb 2, .absorb 3, .finish].map encodeCommand := rfl
    rw [words]
    intro h
    obtain ⟨c, -, hc⟩ := List.mem_map.1 h
    exact ⟨c, hc⟩
  · rintro ⟨c, rfl⟩
    cases c with
    | absorb k => revert k; decide
    | _ => decide

/-- A word that is no command, written to CMD where a command would be accepted, is an ILLEGAL error (60_exceptions R214). -/
theorem runRequest_illegal {v : Word} {s : State} (hlegal : legalCommand v = false) (hr : s.rst = false)
    (he : s.err = false) (hb : s.busy = false) :
    runRequest (memWrite offCmd 4 v) s = .next (raiseError .illegal s) := by
  rw [runRequest_memWrite]
  apply busWrite_of_reject
  rw [checkWrite_of_ready _ _ _ ((ready_iff s).2 ⟨hr, hb, he⟩),
    if_neg (by simp [(badAddress_eq_false_iff offCmd 4).2 ⟨rfl, .inl rfl⟩]), if_pos ⟨rfl, hlegal⟩]

/-- Settles O2: the rule is the definition, the words are those the decoder accepts, and WR_CMD is its request. -/
theorem legalCommandWordsAreTheSeven : Obligations.LegalCommandWordsAreTheSeven := by
  refine fun v => ⟨decide_eq_true_iff, (legalCommand_iff_encodes v).trans (mem_seven_iff_encodes v).symm,
    legalCommand_iff_decodes v, fun c => encodeCommand_of_decodeCommand, fun hlegal s hr he hb => ?_⟩
  have illegal := runRequest_illegal hlegal hr he hb
  exact ⟨(exec_write (.wrCmd 4 v) s rfl).trans illegal, illegal⟩

/-! ### ABSORB and the other lanes of DATA_IN (30_encoding R84) -/

/-- ABSORB n is the bus write of its word (30_encoding R88). -/
theorem exec_absorb (k : BitVec 2) (s : State) :
    exec (.absorb k) s = busWrite offCmd 4 (encodeCommand (.absorb k)) (acceptCommand (.absorb k)) s := rfl

theorem absorbBytes_congr {k : BitVec 2} {u v : Word} (h : ∀ j, j ≤ k.toNat → lane u j = lane v j) :
    absorbBytes k u = absorbBytes k v := by
  refine List.map_congr_left fun j hj => h j ?_
  rw [List.mem_range, absorbCount] at hj
  omega

theorem acceptAbsorb_dataIn {k : BitVec 2} {s : State} {v : Word}
    (h : ∀ j, j ≤ k.toNat → lane v j = lane s.dataIn j) :
    acceptAbsorb k { s with dataIn := v } = { acceptAbsorb k s with dataIn := v } := by
  rw [acceptAbsorb_eq, acceptAbsorb_eq, absorbBytes_congr h]
  exact absorbAll_dataIn _ { s with done := false } v

/-- Settles O24: the checks do not read DATA_IN, and the bytes absorbed are its lanes 0 to n - 1. -/
theorem absorbIgnoresTheOtherLanes : Obligations.AbsorbIgnoresTheOtherLanes := by
  intro k s v hlanes t h
  rw [exec_absorb] at h ⊢
  have hcheck : checkWrite offCmd 4 (encodeCommand (.absorb k)) { s with dataIn := v } =
      checkWrite offCmd 4 (encodeCommand (.absorb k)) s := rfl
  rcases busWrite_cases offCmd 4 (encodeCommand (.absorb k)) (acceptCommand (.absorb k)) s with
    ⟨hc, hs⟩ | ⟨e, hc, hs⟩ | ⟨hc, hs⟩
  · obtain rfl : s = t := by simpa [hs] using h
    exact busWrite_of_ignore (hcheck.trans hc)
  · obtain rfl : raiseError e s = t := by simpa [hs] using h
    exact busWrite_of_reject (hcheck.trans hc)
  · obtain rfl : acceptAbsorb k s = t := by simpa [hs, acceptCommand] using h
    rw [busWrite_of_perform (hcheck.trans hc), acceptCommand, acceptAbsorb_dataIn hlanes]

/-! ### Words of the opcode table (30_encoding R85, R90) -/

/-- Settles O3, by evaluation of the nine words and requests. -/
theorem wordsOfTheTableDecode : Obligations.WordsOfTheTableDecode :=
  ⟨rfl, rfl, rfl, rfl, rfl, rfl, rfl, rfl, rfl⟩

theorem decodeTableWord_eq_some {nbits w : Nat} {i : Instr} (h : decodeTableWord nbits w = some i) :
    ∃ r, tableRequest nbits w = some r ∧ decode r = .ok i := by
  unfold decodeTableWord at h
  split at h
  · rename_i r hr
    refine ⟨r, hr, ?_⟩
    cases hd : decode r with
    | error e => simp [hd, Except.toOption] at h
    | ok j =>
      rw [hd] at h
      injection h with h
      rw [h]
  · cases h

/-- The step after a request is placed performs it, on the state it was placed in. -/
theorem step_placeRequest (r : Request) (s : State) : step (placeRequest r s) = runRequest r s :=
  step_of_host_access (s := placeRequest r s) rfl rfl

/-- Settles O6: the word's request is placed, and it decodes to the instruction. -/
theorem placedTableWordRunsNext : Obligations.PlacedTableWordRunsNext := by
  intro s nbits w i h
  obtain ⟨r, hr, hdec⟩ := decodeTableWord_eq_some h
  have placed : s.withFetchWord nbits w = placeRequest r s := by
    rw [State.withFetchWord, placeTableWord, hr]
  rw [placed, step_placeRequest, runRequest_of_decode hdec]

/-! ### WAIT (30_encoding R89) -/

/-- Bit 0 of STATUS, which WAIT tests, is BUSY (10_state R35). -/
theorem lastReadOdd_statusWord (s t : State) : lastReadOdd (returnValue s.statusWord t) = s.busy := by
  show s.statusWord.getLsbD 0 = s.busy
  rw [getLsbD_statusWord s 0 (by omega)]
  simp

theorem waitMove_of_not_rst {s : State} (rest : List HostOp) (hr : s.rst = false) :
    waitMove rest s = .next { s with
      program := if s.busy then .wait :: rest else rest
      reads := s.statusWord :: s.reads } := by
  have hread : exec (.rdStatus 4) { s with program := rest } = .next (returnValue s.statusWord { s with program := rest }) :=
    busRead_word (s := { s with program := rest }) hr s.statusWord
  unfold waitMove
  rw [hread]
  simp only [lastReadOdd_statusWord]
  cases s.busy <;> rfl

/-- Settles O8: the host's turn is the WAIT, on the state without that turn. -/
theorem waitReadsStatusAndLoopsWhileBusy : Obligations.WaitReadsStatusAndLoopsWhileBusy := by
  intro s rest hturn hprog hr
  have hmove : hostMove { s with turns := s.turns.tail } = waitMove rest { s with turns := s.turns.tail } := by
    simp only [hostMove, hprog]
  rw [step_of_host_turn hturn, hmove]
  exact waitMove_of_not_rst (s := { s with turns := s.turns.tail }) rest hr

end Sys2Proof.Machine
end

section
/-! The rotator bit by bit, and the tables T and S against their definitions (40_rotator_tables R100, R104, R107). -/

namespace Sys2Proof.Machine

open Sys2Proof.Laws.Sine

/-! ### The rotator -/

/-- Within the word, amounts taken modulo 32 (R101) make `rotl` the library's rotation. -/
theorem rotl_eq_rotateLeft (v : Word) (n : Nat) : rotl v n = v.rotateLeft n := rfl

/-- Settles O33: the low n bits of the result come from the top of the word, the others from n places below. -/
theorem rotlMovesEveryBit : Obligations.RotlMovesEveryBit := by
  refine ⟨fun v n k _ h31 hk => ?_, rfl⟩
  rw [rotl_eq_rotateLeft, BitVec.getLsbD_rotateLeft, Nat.mod_eq_of_lt (by omega : n < 32)]
  by_cases hkn : k < n
  · have source : (k + 32 - n) % 32 = 32 - n + k := by omega
    simp [hkn, source]
  · have source : (k + 32 - n) % 32 = k - n := by omega
    simp [hkn, source, hk]

/-! ### The table T -/

/-- The absolute value of sin n, to within n / 10^17 of a quotient of natural numbers. -/
theorem abs_sin_close (n : ℕ) : |(|Real.sin n| - (gauss n).2.natAbs / (2 ^ 64) ^ n : ℝ)| ≤ n / 10 ^ 17 := by
  have h := (abs_abs_sub_abs_le _ _).trans (sin_close n)
  rwa [abs_div, abs_of_pos (by positivity : (0 : ℝ) < 2 ^ (64 * n)), pow_mul, ← Int.cast_abs, ← Nat.cast_natAbs] at h

/-- The quotient of `abs_sin_close`, times 2^32, lies in [t, t + 1), and so far inside that its error cannot leave it: the
two bounds over the common denominator 10^17 * 2^(64 n). -/
abbrev Encloses (t n : ℕ) : Prop :=
  (t * 10 ^ 17 + n * 2 ^ 32) * (2 ^ 64) ^ n ≤ (gauss n).2.natAbs * (2 ^ 32 * 10 ^ 17) ∧
    (gauss n).2.natAbs * (2 ^ 32 * 10 ^ 17) + n * 2 ^ 32 * (2 ^ 64) ^ n < (t + 1) * 10 ^ 17 * (2 ^ 64) ^ n

theorem floor_abs_sin_of_encloses {t n : ℕ} (h : Encloses t n) : ⌊|Real.sin n| * 2 ^ 32⌋₊ = t := by
  obtain ⟨below, above⟩ := h
  obtain ⟨closeBelow, closeAbove⟩ := abs_le.1 (abs_sin_close n)
  have hpos : (0 : ℝ) < (2 ^ 64) ^ n := by positivity
  have lower : (t * 10 ^ 17 + n * 2 ^ 32 : ℝ) ≤ (gauss n).2.natAbs / (2 ^ 64) ^ n * (2 ^ 32 * 10 ^ 17) := by
    rw [div_mul_eq_mul_div, le_div_iff₀ hpos]
    exact_mod_cast below
  have upper : (gauss n).2.natAbs / (2 ^ 64) ^ n * (2 ^ 32 * 10 ^ 17) < ((t + 1) * 10 ^ 17 - n * 2 ^ 32 : ℝ) := by
    rw [div_mul_eq_mul_div, div_lt_iff₀ hpos, sub_mul, lt_sub_iff_add_lt]
    exact_mod_cast above
  rw [Nat.floor_eq_iff (by positivity)]
  constructor <;> linarith

/-- The check of all 64 entries, by evaluation of integers. -/
theorem encloses_tableT : ∀ i : Fin 64, Encloses tableT[i].toNat (i.val + 1) := by decide

/-- Settles O34: each entry's bounds are checked on integers, and the sine's error lies within them. -/
theorem tableTIsTheSineTable : Obligations.TableTIsTheSineTable := by
  intro i
  have h := floor_abs_sin_of_encloses (encloses_tableT i)
  push_cast at h
  exact h.symm

/-! ### The table S -/

/-- Settles O35, by evaluation of the 64 entries. -/
theorem tableSRepeatsFourGroups : Obligations.TableSRepeatsFourGroups := by
  unfold Obligations.TableSRepeatsFourGroups
  decide

end Sys2Proof.Machine
end

section
/-! The padder's bytes, the splitter's blocks, and the streaming form against both (41_padder_splitter R120 to R130). -/

namespace Sys2Proof.Machine

/-! ### The padded message (R120 to R124) -/

theorem pad_length_eq (m : List Byte) : (pad m).length = 64 * ((m.length + 8) / 64 + 1) := by
  rw [pad_length, padZeros_eq]
  omega

/-- After the message: the marker, the zeros, the bit length. -/
theorem pad_eq_append (m : List Byte) :
    pad m = m ++ 0x80 :: (zeros (padZeros m.length) ++ le64bytes (bitLength m)) := by
  simp [pad]

theorem getElem?_zeros {n k : Nat} (h : k < n) : (zeros n)[k]? = some 0x00 :=
  List.getElem?_replicate_of_lt h

theorem take_pad (m : List Byte) : (pad m).take m.length = m := by
  rw [pad_eq_append, List.take_left]

theorem getElem?_pad_marker (m : List Byte) : (pad m)[m.length]? = some 0x80 := by
  rw [pad_eq_append, List.getElem?_append_right le_rfl, Nat.sub_self, List.getElem?_cons_zero]

theorem getElem?_pad_zero {m : List Byte} {k : Nat} (hlow : m.length < k) (hhigh : k + 8 < (pad m).length) :
    (pad m)[k]? = some 0x00 := by
  rw [pad_length] at hhigh
  obtain ⟨i, rfl⟩ := Nat.exists_eq_add_of_lt hlow
  have hi : i < padZeros m.length := by omega
  rw [pad_eq_append, List.getElem?_append_right (by omega), Nat.add_assoc, Nat.add_sub_cancel_left,
    List.getElem?_cons_succ, List.getElem?_append_left (by simpa using hi), getElem?_zeros hi]

theorem drop_pad (m : List Byte) : (pad m).drop ((pad m).length - 8) = le64bytes (bitLength m) := by
  rw [pad_length, Nat.add_sub_cancel, pad]
  exact List.drop_left' (by simp; omega)

/-- Settles O45, part by part along `pad`: message, marker, zeros, bit length. -/
theorem paddingAlignsAndEncodesTheLength : Obligations.PaddingAlignsAndEncodesTheLength :=
  fun m => ⟨pad_length_eq m, take_pad m, getElem?_pad_marker m, fun _ => getElem?_pad_zero, drop_pad m⟩

/-! ### The blocks of split (R126) -/

theorem splitBlocks_of_length {p : List Byte} {n : Nat} (h : p.length = 64 * n) : splitBlocks p = some (blocksOf n p) := by
  have hn : p.length / 64 = n := by omega
  rw [splitBlocks, if_pos (by omega), hn]

theorem getElem?_blocksOf {n t : Nat} (p : List Byte) (h : t < n) :
    (blocksOf n p)[t]? = some (blockOf ((p.drop (64 * t)).take 64)) := by
  induction t generalizing n p with
  | zero =>
    obtain ⟨n, rfl⟩ := Nat.exists_eq_succ_of_ne_zero h.ne'
    rw [blocksOf, List.getElem?_cons_zero, Nat.mul_zero, List.drop_zero]
  | succ t ih =>
    obtain ⟨n, rfl⟩ := Nat.exists_eq_succ_of_ne_zero (Nat.ne_zero_of_lt h)
    rw [blocksOf, List.getElem?_cons_succ, ih _ (by omega), List.drop_drop, Nat.mul_succ, Nat.add_comm]

theorem toList_of_getElem?_blocksOf {n t : Nat} {p : List Byte} {b : Block} (hp : p.length = 64 * n)
    (h : (blocksOf n p)[t]? = some b) : b.toList = (p.drop (64 * t)).take 64 := by
  obtain ⟨ht, -⟩ := List.getElem?_eq_some_iff.1 h
  rw [blocksOf_length] at ht
  rw [getElem?_blocksOf p ht, Option.some_inj] at h
  rw [← h, toList_blockOf]
  rw [List.length_take, List.length_drop]
  omega

/-- Settles O46: the blocks are `blocksOf`'s, which flatten to the sequence and stand 64 bytes apart in it. -/
theorem splitCutsConsecutiveBlocks : Obligations.SplitCutsConsecutiveBlocks := by
  intro p hp
  have hlen : p.length = 64 * (p.length / 64) := by omega
  exact ⟨blocksOf (p.length / 64) p, splitBlocks_of_length hlen, blocksOf_length _ _, blocksOf_flatten _ _ hlen,
    fun _ _ => toList_of_getElem?_blocksOf hlen⟩

/-! ### Streaming (R128 to R130) -/

/-- Whole blocks in front of a sequence are split off first. -/
theorem splitBlocks_append {n : Nat} {p q : List Byte} {bs : List Block} (hp : p.length = 64 * n)
    (hq : splitBlocks q = some bs) : splitBlocks (p ++ q) = some (blocksOf n p ++ bs) := by
  unfold splitBlocks at hq
  split at hq
  · rename_i hmod
    injection hq with hq
    have hlen : (p ++ q).length = 64 * (n + q.length / 64) := by
      rw [List.length_append]
      omega
    rw [splitBlocks_of_length hlen, blocksOf_append n _ p q hp, hq]
  · cases hq

/-- Padding leaves whole blocks in front of a message untouched, as their length does not change the number of zeros. -/
theorem pad_append {n : Nat} {p : List Byte} (q : List Byte) (hp : p.length = 64 * n) :
    pad (p ++ q) = p ++ padTail q (bitLength (p ++ q)) := by
  have hzeros : padZeros (p.length + q.length) = padZeros q.length := by
    rw [padZeros_eq, padZeros_eq]
    omega
  simp [pad, padTail, hzeros]

/-- The first n blocks of a sequence are those of its first 64 n bytes. -/
theorem blocksOf_take {n : Nat} {p : List Byte} (h : 64 * n ≤ p.length) : blocksOf n (p.take (64 * n)) = blocksOf n p := by
  have happ := blocksOf_append n 0 (p.take (64 * n)) (p.drop (64 * n)) (List.length_take_of_le h)
  rw [List.take_append_drop, blocksOf, List.append_nil, Nat.add_zero] at happ
  exact happ.symm

/-- The blocks of a padded message: those the message fills, then those of its padded tail. -/
theorem splitBlocks_pad {n : Nat} {m : List Byte} (h : 64 * n ≤ m.length) :
    splitBlocks (pad m) = some (blocksOf n m ++ tailBlocks (m.drop (64 * n)) (bitLength m)) := by
  have hlen : (m.take (64 * n)).length = 64 * n := List.length_take_of_le h
  have hpad := pad_append (m.drop (64 * n)) hlen
  rw [List.take_append_drop] at hpad
  rw [hpad, splitBlocks_append hlen (splitBlocks_padTail _ _), blocksOf_take h]

/-- Settles O47: what the bytes leave from an empty partial block, and the padded message cut after its full blocks. -/
theorem streamingAgreesWithPadAndSplit : Obligations.StreamingAgreesWithPadAndSplit := by
  intro m s hbuf hlen
  obtain ⟨hpend', hbuf'⟩ := absorbAll_stream m s (by simp [hbuf])
  have hlen' : (absorbAll m s).len = bitLength m := by simp [absorbAll_len, hlen]
  rw [hbuf, List.length_nil, Nat.zero_add, List.nil_append] at hpend' hbuf'
  have hfull : 64 * (m.length / 64) ≤ m.length := Nat.mul_div_le _ _
  refine ⟨blocksOf (m.length / 64) m, tailBlocks (m.drop (64 * (m.length / 64))) (bitLength m), hpend',
    blocksOf_length _ _, hbuf', hlen', ?_, splitBlocks_pad hfull⟩
  rw [hbuf', hlen', splitBlocks_padTail]

end Sys2Proof.Machine
end

section
/-! The compression function: the words of a block, the round functions and the order of the words (42_compressor section 1). -/

namespace Sys2Proof.Machine

/-! ### The words of a block (R140) -/

theorem lane_or (u v : Word) (k : Nat) : lane (u ||| v) k = lane u k ||| lane v k :=
  BitVec.extractLsb'_or

/-- A byte moved left by whole bytes stands in one lane, and the others are 0. -/
theorem lane_shiftLeft_byte (b : Byte) {n k : Nat} (hn : n % 8 = 0) (hk : k < 4) :
    lane (b.setWidth 32 <<< n) k = if n = 8 * k then b else 0 := by
  apply BitVec.eq_of_getLsbD_eq
  intro i hi
  have hbit : (lane (b.setWidth 32 <<< n) k).getLsbD i = (!decide (8 * k + i < n) && b.getLsbD (8 * k + i - n)) := by
    simp [lane, hi, show 8 * k + i < 32 by omega]
  rw [hbit]
  rcases Nat.lt_trichotomy n (8 * k) with below | rfl | above
  · simp [below.ne, BitVec.getLsbD_of_ge b (8 * k + i - n) (by omega)]
  · simp
  · simp [above.ne', show 8 * k + i < n by omega]

/-- `le32bytes` gives back the bytes that `le32` joined (00_scope R10). -/
theorem le32bytes_le32 (b0 b1 b2 b3 : Byte) : le32bytes (le32 b0 b1 b2 b3) = [b0, b1, b2, b3] := by
  have hle : le32 b0 b1 b2 b3 =
      b0.setWidth 32 <<< 0 ||| b1.setWidth 32 <<< 8 ||| b2.setWidth 32 <<< 16 ||| b3.setWidth 32 <<< 24 := by
    rw [BitVec.shiftLeft_zero]
    rfl
  simp [le32bytes, hle, lane_or, lane_shiftLeft_byte, -BitVec.shiftLeft_zero]

theorem getElem_wordsOf (b : Block) (j : Fin 16) :
    (wordsOf b)[j] = le32 b[4 * j.val] b[4 * j.val + 1] b[4 * j.val + 2] b[4 * j.val + 3] := by
  simp [wordsOf]

/-- Settles O36: the lanes of word j are the four bytes that `le32` joined into it. -/
theorem blockWordsAreLittleEndian : Obligations.BlockWordsAreLittleEndian := by
  intro b j k
  have lanes := le32bytes_le32 b[4 * j.val] b[4 * j.val + 1] b[4 * j.val + 2] b[4 * j.val + 3]
  simp only [← getElem_wordsOf, le32bytes, List.cons.injEq, and_true] at lanes
  obtain ⟨lane0, lane1, lane2, lane3⟩ := lanes
  match k with
  | 0 => exact lane0
  | 1 => exact lane1
  | 2 => exact lane2
  | 3 => exact lane3

/-! ### The round functions (R141 to R145) -/

/-- Bit by bit, `(p & q) | (~p & r)` is q where p is 1 and r where p is 0. -/
theorem getLsbD_choose (p q r : Word) {n : Nat} (hn : n < 32) :
    ((p &&& q) ||| (~~~p &&& r)).getLsbD n = if p.getLsbD n then q.getLsbD n else r.getLsbD n := by
  rw [BitVec.getLsbD_or, BitVec.getLsbD_and, BitVec.getLsbD_and, BitVec.getLsbD_not]
  cases p.getLsbD n <;> simp [hn]

/-- Settles O37, group by group: two choices, a sum, and a sum with a complement. -/
theorem roundFunctionsBitByBit : Obligations.RoundFunctionsBitByBit := by
  intro i b c d n _ hn
  unfold roundFunction
  by_cases h16 : i < 16
  · rw [if_pos h16, if_pos h16, getLsbD_choose b c d hn]
  by_cases h32 : i < 32
  · rw [if_neg h16, if_neg h16, if_pos h32, if_pos h32, getLsbD_choose d b c hn]
  rw [if_neg h16, if_neg h16, if_neg h32, if_neg h32]
  split
  · rw [BitVec.getLsbD_xor, BitVec.getLsbD_xor, Bool.xor_assoc]
  · rw [BitVec.getLsbD_xor, BitVec.getLsbD_or, BitVec.getLsbD_not, decide_eq_true hn, Bool.true_and]

/-! ### The word indices (R141 to R144, R146) -/

theorem wordIndex_val (i : Nat) :
    (wordIndex i).val =
      if i < 16 then i else if i < 32 then (5 * i + 1) % 16 else if i < 48 then (3 * i + 5) % 16 else 7 * i % 16 := by
  unfold wordIndex
  split_ifs with h
  · exact Nat.mod_eq_of_lt h
  all_goals rfl

/-- The index of a group's round j is linear in j modulo 16 with an odd factor, so no two rounds of a group share a word. -/
theorem wordIndex_injective (q : Nat) : Function.Injective fun j : Fin 16 => wordIndex (16 * q + j.val) := by
  intro j k h
  have hval : (wordIndex (16 * q + j.val)).val = (wordIndex (16 * q + k.val)).val := congrArg Fin.val h
  rw [wordIndex_val, wordIndex_val] at hval
  simp only [show 16 * q + k.val < 16 ↔ 16 * q + j.val < 16 by omega, show 16 * q + k.val < 32 ↔ 16 * q + j.val < 32 by omega,
    show 16 * q + k.val < 48 ↔ 16 * q + j.val < 48 by omega] at hval
  split_ifs at hval <;> omega

/-- Settles O38: within a group the index is injective on 16 rounds, and so a bijection onto the 16 words. -/
theorem eachGroupUsesEveryWordOnce : Obligations.EachGroupUsesEveryWordOnce := by
  refine ⟨fun i _ => wordIndex_val i, fun q _ g => ?_⟩
  obtain ⟨j, hj, unique⟩ := (Finite.injective_iff_bijective.1 (wordIndex_injective q)).existsUnique g
  exact ⟨j, ⟨j.isLt, hj⟩, fun k hk hg => congrArg Fin.val (unique ⟨k, hk⟩ hg)⟩

end Sys2Proof.Machine
end

section
/-! The core's steps one by one, and 65 of them a block as `compress` (42_compressor section 2). -/

namespace Sys2Proof.Machine

/-! ### One step -/

/-- Settles O39: the START step of `coreStep_start`. -/
theorem startLoadsTheHeadBlock : Obligations.StartLoadsTheHeadBlock :=
  fun _ _ _ hr ha hp => coreStep_start hr ha hp

/-- Settles O40: a round is `oneRound`, and the last one adds what it leaves onto H. -/
theorem roundReplacesTheWorkingRegisters : Obligations.RoundReplacesTheWorkingRegisters := by
  refine fun s hr ha => ⟨fun hn => coreStep_round hr ha hn, fun h63 => ?_⟩
  rw [coreStep_last hr ha h63, ← h63]
  rfl

theorem finishesMessage_iff (s : State) : finishesMessage s = true ↔ s.pend.tail = [] ∧ s.fin = true := by
  simp [finishesMessage]

theorem endOfBlock_of_finishesMessage {s : State} (h : finishesMessage s = true) :
    endOfBlock s = { s with
      h := addQuad s.h s.w, pend := s.pend.tail, active := false, rnd := 0, done := true, fin := false } := by
  simp [endOfBlock, h]

theorem endOfBlock_of_not_finishesMessage {s : State} (h : ¬ finishesMessage s = true) :
    endOfBlock s = { s with h := addQuad s.h s.w, pend := s.pend.tail, active := false, rnd := 0 } := by
  simp [endOfBlock, h]

/-- Settles O41, by whether the block that ends is the last of a finished message. -/
theorem lastRoundEndsTheBlock : Obligations.LastRoundEndsTheBlock := by
  intro s hr ha h63 w last
  refine ⟨w, s.x, (coreStep_last hr ha h63).trans ?_⟩
  have hiff : finishesMessage { s with w := w } = true ↔ last := finishesMessage_iff _
  by_cases hl : last
  · simp only [if_pos hl]
    exact endOfBlock_of_finishesMessage (hiff.2 hl)
  · simp only [if_neg hl]
    exact endOfBlock_of_not_finishesMessage (mt hiff.1 hl)

theorem coreStep_of_not_busy {s : State} (hb : s.busy = false) : coreStep s = s := by
  obtain ⟨ha, hp⟩ := (busy_eq_false_iff s).1 hb
  simp [coreStep, ha, hp]

/-- Settles O42: START sets ACTIVE, a round moves RND on, and the end of a block clears ACTIVE. -/
theorem coreStepsExactlyWhenBusy : Obligations.CoreStepsExactlyWhenBusy := by
  refine fun s hr => ⟨fun hs => ?_, coreStep_of_not_busy⟩
  rcases coreStep_cases s with ⟨-, hrst | hb⟩ | ⟨-, ha, b, rest, -, h⟩ | ⟨-, -, -, h⟩ | ⟨-, ha, -, h⟩
  · exact absurd hrst (by simp [hr])
  · exact hb
  · exact absurd (congrArg State.active (hs.symm.trans h)) (by simp [ha])
  · exact absurd (congrArg State.rnd (hs.symm.trans h)) (by simp)
  · exact absurd (congrArg State.active (hs.symm.trans h)) (by simp [ha])

/-! ### 65 steps a block -/

/-- BUSY = 1 before each of the 65 steps of the head block. -/
theorem busy_coreSteps_of_le {s : State} {b : Block} {rest : List Block} (hr : s.rst = false) (ha : s.active = false)
    (hp : s.pend = b :: rest) {j : Nat} (hj : j ≤ 64) : (coreSteps j s).busy = true := by
  cases j with
  | zero => simp [coreSteps, State.busy, hp]
  | succ k =>
    rw [coreSteps_inBlock hr ha hp k (by omega)]
    rfl

theorem compressAll_cons (b : Block) (bs : List Block) (h : Quad) :
    compressAll (b :: bs) h = compressAll bs (compress b h) :=
  List.foldl_cons

/-- Settles O43, by induction on PEND: `coreSteps_block` takes the head block off it. -/
theorem coreStepsComputeCompress : Obligations.CoreStepsComputeCompress := by
  intro s hr ha
  induction hp : s.pend generalizing s with
  | nil => exact ⟨fun j hj => absurd hj (Nat.not_lt_zero j), rfl, hp, ha⟩
  | cons b rest ih =>
    have hblock := coreSteps_block hr ha hp
    have hsplit (n : Nat) := coreSteps_add (64 + 1) n s
    obtain ⟨busy, fold, empty, idle⟩ := ih (coreSteps (64 + 1) s) (by rw [hblock]; exact hr) (by rw [hblock]) (by rw [hblock])
    have hlen : 65 * (b :: rest).length = 64 + 1 + 65 * rest.length := by rw [List.length_cons]; omega
    rw [hlen, hsplit]
    refine ⟨fun j hj => ?_, ?_, empty, idle⟩
    · by_cases h : j ≤ 64
      · exact busy_coreSteps_of_le hr ha hp h
      · obtain ⟨n, rfl⟩ : ∃ n, j = 64 + 1 + n := ⟨j - (64 + 1), by omega⟩
        rw [hsplit]
        exact busy n (by omega)
    · rw [fold, hblock, compressAll_cons]

end Sys2Proof.Machine
end

section
/-! The commands and the DATA_IN write: each one's word, its effect where it is accepted, and its errors (43_commands R170 to R176). -/

namespace Sys2Proof.Machine

/-! ### The errors of a command (60_exceptions R213, R216) -/

/-- While ERR = 1 every command is ignored but an INIT with BUSY = 0. -/
theorem exec_toInstr_of_err {c : Command} {s : State} (hr : s.rst = false) (he : s.err = true)
    (hc : c = .init → s.busy = true) : exec c.toInstr s = .next s := by
  have hrec : ¬ isRecovery offCmd 4 (encodeCommand c) s = true := fun h => by
    obtain ⟨-, -, hword, hb⟩ := (isRecovery_iff _ _ _ _).1 h
    simp [hc (encodeCommand_inj hword)] at hb
  rw [exec_toInstr, commandWrite, busWrite_of_ignore]
  rw [checkWrite_of_err _ _ _ hr he, if_neg hrec]

theorem exec_toInstr_of_busy (c : Command) {s : State} (hr : s.rst = false) (he : s.err = false) (hb : s.busy = true) :
    exec c.toInstr s = .next (raiseError .busy s) := by
  rw [exec_toInstr, commandWrite, busWrite_of_reject (checkWrite_of_busy _ _ _ hr he hb)]

/-- With ERR = 0 and BUSY = 0 every command is performed. -/
theorem exec_toInstr_of_ready (c : Command) {s : State} (hr : s.rst = false) (he : s.err = false) (hb : s.busy = false) :
    exec c.toInstr s = acceptCommand c s :=
  exec_toInstr_of_accepted c hr hb (by simp [he])

/-! ### NOP and INIT -/

/-- Settles O16: the three outcomes of a command, of which NOP's acceptance is no effect. -/
theorem nopHasNoEffect : Obligations.NopHasNoEffect :=
  ⟨rfl, fun _ hr => ⟨exec_toInstr_of_ready .nop hr, exec_toInstr_of_busy .nop hr,
    fun he => exec_toInstr_of_err (c := .nop) hr he (by simp)⟩⟩

/-- Settles O17: INIT is accepted whenever BUSY = 0. -/
theorem initStartsAFreshMessage : Obligations.InitStartsAFreshMessage :=
  ⟨rfl, fun _ hr => ⟨fun hb => exec_toInstr_of_accepted .init hr hb fun _ => rfl,
    fun hb he => exec_toInstr_of_busy .init hr he hb, fun hb he => exec_toInstr_of_err (c := .init) hr he fun _ => hb⟩⟩

/-! ### WR_CMD of a legal word (R170) -/

/-- The write of a command's word to CMD is the command's row, in every state. -/
theorem exec_wrCmd_encodeCommand (c : Command) (s : State) : exec (.wrCmd 4 (encodeCommand c)) s = exec c.toInstr s := by
  rw [exec_write _ s rfl]
  exact runRequest_of_decode (decode_command c) s

/-- Settles O20: a legal word is the word of its command, and an accepted command completes. -/
theorem writeToCmdPerformsTheCommand : Obligations.WriteToCmdPerformsTheCommand := by
  intro v c s hdec
  obtain rfl := encodeCommand_of_decodeCommand hdec
  refine ⟨exec_wrCmd_encodeCommand c s, fun hr he hb => ?_⟩
  obtain ⟨t, ht⟩ := acceptCommand_next c s
  exact ⟨t, by rw [exec_wrCmd_encodeCommand, exec_toInstr_of_ready c hr he hb, ht], ht⟩

/-! ### DATA_IN (R176) -/

/-- WR_DATA_IN is the bus write to DATA_IN, of any size. -/
theorem exec_wrDataIn (size : Nat) (v : Word) (s : State) :
    exec (.wrDataIn size v) s = busWrite offDataIn size v (fun t => .next (storeDataIn v t)) s := rfl

theorem exec_wrDataIn_of_ready {s : State} (v : Word) (hr : s.rst = false) (he : s.err = false) (hb : s.busy = false) :
    exec (.wrDataIn 4 v) s = .next (storeDataIn v s) := by
  rw [exec_wrDataIn, busWrite_of_perform]
  rw [checkWrite_of_ready _ _ _ ((ready_iff s).2 ⟨hr, hb, he⟩)]
  rfl

/-- No command touches DATA_IN, whatever the checks decide. -/
theorem exec_toInstr_dataIn {c : Command} {s t : State} (h : exec c.toInstr s = .next t) : t.dataIn = s.dataIn := by
  rw [exec_toInstr] at h
  rcases busWrite_cases offCmd 4 (encodeCommand c) (acceptCommand c) s with ⟨-, hs⟩ | ⟨e, -, hs⟩ | ⟨-, hs⟩
  · obtain rfl : s = t := by simpa [commandWrite, hs] using h
    rfl
  · obtain rfl : raiseError e s = t := by simpa [commandWrite, hs] using h
    rfl
  · exact (acceptCommand_frame (hs.symm.trans h)).dataIn

/-- Settles O21: the write by its checks, the read by its register, and the commands by their frame. -/
theorem dataInHoldsTheValueWritten : Obligations.DataInHoldsTheValueWritten := by
  refine ⟨rfl, fun _ => rfl, fun v s hr => ⟨exec_wrDataIn_of_ready v hr, fun he hb n => ?_, fun he hb n hn => ?_,
    fun he n => ?_, busRead_word hr s.dataIn, fun _ => exec_toInstr_dataIn (c := .init), fun k _ => exec_toInstr_dataIn (c := .absorb k)⟩⟩
  · rw [exec_wrDataIn, busWrite_of_reject (checkWrite_of_busy _ _ _ hr he hb)]
    rfl
  · rw [exec_write _ s rfl]
    exact runRequest_badAddress (off := offDataIn) v ((badAddress_iff _ _).2 (.inl hn)) hr he hb
  · have hrec : ¬ isRecovery offDataIn n v s = true := by simp [isRecovery_iff, offDataIn, offCmd]
    rw [exec_wrDataIn, busWrite_of_ignore]
    rw [checkWrite_of_err _ _ _ hr he, if_neg hrec]

/-! ### ABSORB (R174) -/

theorem bitLength_absorbBytes (k : BitVec 2) (v : Word) :
    bitLength (absorbBytes k v) = BitVec.ofNat 64 (8 * (k.toNat + 1)) := by
  rw [bitLength, absorbBytes_length]

/-- Settles O18: `absorbAll_closed` of the lanes, from an empty PEND. -/
theorem absorbTakesLanesInOrder : Obligations.AbsorbTakesLanesInOrder := by
  refine ⟨rfl, fun k s hr => ⟨fun he => exec_toInstr_of_err (c := .absorb k) hr he (by simp),
    exec_toInstr_of_busy (.absorb k) hr, fun he hb hbuf => ?_⟩⟩
  intro n bytes
  have hexec : exec (.absorb k) s = .next (acceptAbsorb k s) := exec_toInstr_of_ready (.absorb k) hr he hb
  have hlen : (absorbBytes k s.dataIn).length = n := absorbBytes_length k s.dataIn
  have hpend : s.pend = [] := ((busy_eq_false_iff s).1 hb).2
  obtain ⟨short, long⟩ := absorbAll_closed (absorbBytes k s.dataIn) { s with done := false } hbuf
    (by rw [hlen]; have := k.isLt; omega)
  rw [← acceptAbsorb_eq, hlen, bitLength_absorbBytes] at short long
  refine ⟨fun h => by rw [hexec, short h]; rfl, fun h => ⟨blockOf (bytes.take 64), toList_blockOf _ ?_, ?_⟩⟩
  · have : bytes.length = s.buf.length + n := by simp [bytes, n]
    rw [List.length_take]
    omega
  · rw [hexec, long h]
    simp only [hpend]
    rfl

/-! ### FINISH (R175) -/

theorem tailBlocks_flatten (buf : List Byte) (len : DWord) :
    (tailBlocks buf len).flatMap Vector.toList = padTail buf len := by
  have := padTail_length_mod buf len
  exact blocksOf_flatten _ _ (by omega)

/-- FINISH where it is accepted. -/
theorem exec_finish_of_ready {s : State} (hr : s.rst = false) (he : s.err = false) (hb : s.busy = false) :
    exec .finish s = .next (queueTail (tailBlocks s.buf s.len) s) :=
  (exec_toInstr_of_ready .finish hr he hb).trans (acceptFinish_eq s)

/-- Settles O19: the blocks queued are those of the padded tail. -/
theorem finishQueuesThePaddedTail : Obligations.FinishQueuesThePaddedTail :=
  ⟨rfl, fun s hr he hb hbuf => ⟨tailBlocks s.buf s.len, tailBlocks_flatten s.buf s.len, tailBlocks_length s.buf s.len hbuf,
    exec_finish_of_ready hr he hb⟩⟩

end Sys2Proof.Machine
end

section
/-! The digest as bytes and as hexadecimal characters (43_commands R181, R182). -/

namespace Sys2Proof.Machine

/-! ### Bytes -/

/-- Byte 4k + j of the digest is lane j of register k. -/
theorem getElem?_digestBytes (h : Quad) {j : Nat} (hj : j < 4) :
    (digestBytes h)[j]? = some (lane h.a j) ∧ (digestBytes h)[4 + j]? = some (lane h.b j) ∧
    (digestBytes h)[8 + j]? = some (lane h.c j) ∧ (digestBytes h)[12 + j]? = some (lane h.d j) := by
  interval_cases j
  all_goals exact ⟨rfl, rfl, rfl, rfl⟩

/-! ### Hexadecimal characters -/

/-- A nibble is below 16, so its character is in the table and never the default. -/
theorem getElem?_hexDigit (n : BitVec 4) : "0123456789abcdef".toList[n.toNat]? = some (hexDigit n) := by
  revert n
  decide

theorem hexDigit_mem (n : BitVec 4) : hexDigit n ∈ "0123456789abcdef".toList :=
  List.mem_of_getElem? (getElem?_hexDigit n)

theorem highNibble_toNat (b : Byte) : (b.extractLsb' 4 4).toNat = b.toNat / 16 := by
  rw [BitVec.extractLsb'_toNat, Nat.shiftRight_eq_div_pow]
  have := b.isLt
  omega

theorem lowNibble_toNat (b : Byte) : (b.extractLsb' 0 4).toNat = b.toNat % 16 := by
  rw [BitVec.extractLsb'_toNat, Nat.shiftRight_zero]

theorem length_flatMap_hexByte (bs : List Byte) : (bs.flatMap hexByte).length = 2 * bs.length := by
  induction bs with
  | nil => rfl
  | cons b bs ih => rw [List.flatMap_cons, List.length_append, ih, List.length_cons, hexByte]; simp; omega

/-- Byte k is characters 2k and 2k + 1. -/
theorem getElem?_flatMap_hexByte {bs : List Byte} {k : Nat} {b : Byte} (h : bs[k]? = some b) :
    (bs.flatMap hexByte)[2 * k]? = some (hexDigit (b.extractLsb' 4 4)) ∧
    (bs.flatMap hexByte)[2 * k + 1]? = some (hexDigit (b.extractLsb' 0 4)) := by
  induction bs generalizing k with
  | nil => simp at h
  | cons d bs ih =>
    have hcons : (d :: bs).flatMap hexByte =
        hexDigit (d.extractLsb' 4 4) :: hexDigit (d.extractLsb' 0 4) :: bs.flatMap hexByte := rfl
    rw [hcons]
    cases k with
    | zero =>
      obtain rfl : d = b := by simpa using h
      exact ⟨rfl, rfl⟩
    | succ k => exact ih (by simpa using h)

/-- Settles O48: the bytes register by register, and the characters byte by byte. -/
theorem digestBytesAndHex : Obligations.DigestBytesAndHex := by
  refine fun h => ⟨rfl, fun j hj => getElem?_digestBytes h hj, length_flatMap_hexByte (digestBytes h), fun c hc => ?_,
    fun k b hb => ?_⟩
  · obtain ⟨b, -, hcb⟩ := List.mem_flatMap.1 hc
    rcases List.mem_pair.1 hcb with rfl | rfl
    · exact hexDigit_mem _
    · exact hexDigit_mem _
  · obtain ⟨high, low⟩ := getElem?_flatMap_hexByte hb
    rw [← highNibble_toNat, ← lowNibble_toNat, getElem?_hexDigit, getElem?_hexDigit]
    exact ⟨high, low⟩

end Sys2Proof.Machine
end

section
/-! The host's programs UPDATE and HASH, run to their end for every message, under the default order of moves (30_encoding R89, 43_commands R178, R179). -/

namespace Sys2Proof.Machine

/-! ### Reaching a state -/

/-- Some number of steps from s ends in t. -/
def Reaches (s t : State) : Prop := ∃ k, Host.Core.run Sys2Proof.core k s = .next t

theorem Reaches.refl (s : State) : Reaches s s := ⟨0, rfl⟩

theorem Reaches.of_step {s t : State} (h : step s = .next t) : Reaches s t := ⟨1, run_one h⟩

theorem Reaches.trans {s t u : State} (h : Reaches s t) (h' : Reaches t u) : Reaches s u := by
  obtain ⟨j, hj⟩ := h
  obtain ⟨k, hk⟩ := h'
  exact ⟨j + k, (run_add j k s t hj).trans hk⟩

/-! ### The core empties PEND -/

/-- What is left when the core has compressed all of PEND; W, X and RND are parameters, since no rule reads them then (10_state R24). -/
def drained (w : Quad) (x : Vector Word 16) (r : Fin 64) (s : State) : State :=
  { s with
    w := w
    x := x
    rnd := r
    active := false
    h := compressAll s.pend s.h
    pend := []
    done := s.done || (s.fin && !s.pend.isEmpty)
    fin := s.fin && s.pend.isEmpty }

theorem drained_of_not_busy {s : State} (hb : s.busy = false) : drained s.w s.x s.rnd s = s := by
  obtain ⟨ha, hp⟩ := (busy_eq_false_iff s).1 hb
  obtain ⟨⟩ := s
  subst ha hp
  simp [drained, compressAll]

/-- By induction on PEND: `coreSteps_block` takes the head block off it, and the last one ends a finished message. -/
theorem coreSteps_eq_drained {s : State} (hr : s.rst = false) (ha : s.active = false) :
    ∃ w x r, coreSteps (65 * s.pend.length) s = drained w x r s := by
  induction hp : s.pend generalizing s with
  | nil => exact ⟨s.w, s.x, s.rnd, (drained_of_not_busy ((busy_eq_false_iff s).2 ⟨ha, hp⟩)).symm⟩
  | cons b rest ih =>
    have hblock := coreSteps_block hr ha hp
    obtain ⟨w, x, r, hrest⟩ := ih (s := coreSteps (64 + 1) s) (by rw [hblock]; exact hr) (by rw [hblock]) (by rw [hblock])
    have hlen : 65 * (b :: rest).length = 64 + 1 + 65 * rest.length := by rw [List.length_cons]; omega
    refine ⟨w, x, r, ?_⟩
    rw [hlen, coreSteps_add, hrest, hblock]
    cases rest with
    | nil => simp [drained, hp, finishesMessage, compressAll_cons, Bool.or_comm]
    | cons => simp [drained, hp, finishesMessage, compressAll_cons]

theorem reaches_drained {s : State} (hr : s.rst = false) (ha : s.active = false) (ht : s.turns = []) :
    ∃ w x r, Reaches s (drained w x r s) := by
  obtain ⟨busy, -⟩ := coreStepsComputeCompress s hr ha
  obtain ⟨w, x, r, h⟩ := coreSteps_eq_drained hr ha
  exact ⟨w, x, r, _, h ▸ run_coreSteps _ s ht busy⟩

/-! ### The operations of the host -/

/-- With BUSY = 0 a WAIT is one read of STATUS. -/
theorem step_wait {s : State} {rest : List HostOp} (hr : s.rst = false) (hb : s.busy = false) (ht : s.turns = [])
    (hp : s.program = .wait :: rest) : step s = .next (returnValue s.statusWord { s with program := rest }) := by
  have hturn : nextTurn s = .host := by simp [nextTurn, ht, hb]
  rw [waitReadsStatusAndLoopsWhileBusy s rest hturn hp hr]
  simp [returnValue, ht, hb]

/-- With BUSY = 0 a transaction of a row is that row's meaning. -/
theorem reaches_access {s t : State} {r : Request} {i : Instr} {rest : List HostOp} (hb : s.busy = false) (ht : s.turns = [])
    (hp : s.program = .access r :: rest) (hdec : decode r = .ok i) (h : exec i { s with program := rest } = .next t) :
    Reaches s t :=
  .of_step (by rw [step_access ht hb hp, runRequest_of_decode hdec, h])

/-- Nothing is under way: any command is accepted, no turns are listed, no FINISH is unfinished, and BUF is a partial block. -/
structure State.Resting (s : State) : Prop where
  rst : s.rst = false
  busy : s.busy = false
  err : s.err = false
  turns : s.turns = []
  fin : s.fin = false
  bufLength : s.buf.length ≤ 63

theorem State.Resting.idle {s : State} (hs : s.Resting) : s.active = false ∧ s.pend = [] := (busy_eq_false_iff s).1 hs.busy

/-- What the WAIT after a command leaves: a resting core that has compressed all of PEND, and the rest of the program. -/
structure Waited (s : State) (rest : List HostOp) (t : State) : Prop where
  program : t.program = rest
  resting : t.Resting
  h : t.h = compressAll s.pend s.h
  buf : t.buf = s.buf
  len : t.len = s.len
  done : t.done = (s.done || (s.fin && !s.pend.isEmpty))

/-- By default the core empties PEND first, and then the WAIT ends. -/
theorem reaches_wait {s : State} {rest : List HostOp} (hr : s.rst = false) (ha : s.active = false) (he : s.err = false)
    (ht : s.turns = []) (hf : s.fin = true → s.pend ≠ []) (hbuf : s.buf.length ≤ 63) (hp : s.program = .wait :: rest) :
    ∃ t, Reaches s t ∧ Waited s rest t := by
  obtain ⟨w, x, r, h⟩ := reaches_drained hr ha ht
  have hfin : (drained w x r s).fin = false := by
    show (s.fin && s.pend.isEmpty) = false
    cases hs : s.fin with
    | false => rfl
    | true => simp [hf hs]
  exact ⟨_, h.trans (.of_step (step_wait (s := drained w x r s) hr rfl ht hp)), rfl,
    ⟨hr, rfl, he, ht, hfin, hbuf⟩, rfl, rfl, rfl, rfl⟩

/-! ### Absorbing a message -/

/-- What absorbing bytes does to the message depends on BUF and LEN alone. -/
theorem absorbAll_congr (m : List Byte) {s t : State} (hb : s.buf.length ≤ 63) (hbuf : t.buf = s.buf) (hlen : t.len = s.len) :
    (absorbAll m t).buf = (absorbAll m s).buf ∧ (absorbAll m t).len = (absorbAll m s).len ∧
    ∃ full, (absorbAll m s).pend = s.pend ++ full ∧ (absorbAll m t).pend = t.pend ++ full := by
  obtain ⟨spend, sbuf⟩ := absorbAll_stream m s hb
  obtain ⟨tpend, tbuf⟩ := absorbAll_stream m t (hbuf ▸ hb)
  rw [hbuf] at tpend tbuf
  exact ⟨tbuf.trans sbuf.symm, by rw [absorbAll_len, absorbAll_len, hlen], _, spend, tpend⟩

/-- From s, the resting core t has taken the bytes m and compressed the blocks they complete. -/
structure HasAbsorbed (s : State) (m : List Byte) (t : State) : Prop where
  resting : t.Resting
  buf : t.buf = (absorbAll m s).buf
  len : t.len = (absorbAll m s).len
  h : t.h = compressAll (absorbAll m s).pend s.h

theorem HasAbsorbed.nil {s : State} (hs : s.Resting) : HasAbsorbed s [] s :=
  ⟨hs, rfl, rfl, by show s.h = compressAll s.pend s.h; rw [hs.idle.2]; rfl⟩

/-- DATA_IN and the host's program are no part of a message. -/
theorem HasAbsorbed.nil_storeDataIn {s : State} (v : Word) (rest : List HostOp) (hs : s.Resting) :
    HasAbsorbed s [] (storeDataIn v { s with program := rest }) :=
  ⟨⟨hs.rst, hs.busy, hs.err, hs.turns, hs.fin, hs.bufLength⟩, rfl, rfl, (HasAbsorbed.nil hs).h⟩

theorem HasAbsorbed.append {s t u : State} {m n : List Byte} (ht : HasAbsorbed s m t) (hu : HasAbsorbed t n u) :
    HasAbsorbed s (m ++ n) u := by
  obtain ⟨buf, len, full, spend, tpend⟩ := absorbAll_congr n (ht.buf ▸ ht.resting.bufLength) ht.buf ht.len
  rw [ht.resting.idle.2, List.nil_append] at tpend
  rw [← absorbAll_append] at buf len spend
  exact ⟨hu.resting, hu.buf.trans buf, hu.len.trans len, by rw [hu.h, tpend, ht.h, spend, compressAll_append]⟩

/-- ABSORB n and its WAIT take lanes 0 to n - 1 of DATA_IN (43_commands R174). -/
theorem reaches_absorb {s : State} {rest : List HostOp} {k : BitVec 2} (hs : s.Resting)
    (hp : s.program = opCommand (.absorb k) :: .wait :: rest) :
    ∃ t, Reaches s t ∧ t.program = rest ∧ HasAbsorbed s (absorbBytes k s.dataIn) t := by
  have absorbed : Reaches s (acceptAbsorb k { s with program := .wait :: rest }) :=
    reaches_access hs.busy hs.turns hp (decode_command (.absorb k)) (exec_toInstr_of_ready (.absorb k) hs.rst hs.err hs.busy)
  have frame := absorbAll_frame (absorbBytes k s.dataIn) { s with program := .wait :: rest, done := false }
  obtain ⟨buf, len, full, spend, tpend⟩ := absorbAll_congr (absorbBytes k s.dataIn)
    (t := { s with program := .wait :: rest, done := false }) hs.bufLength rfl rfl
  have hfin := frame.fin.trans hs.fin
  have hbuf := buf ▸ absorbAll_bufLength (absorbBytes k s.dataIn) s hs.bufLength
  obtain ⟨t, waited, ht⟩ := reaches_wait (frame.rst.trans hs.rst) (frame.active.trans hs.idle.1) (frame.err.trans hs.err)
    (frame.turns.trans hs.turns) (by simp [hfin]) (by omega) frame.program
  have hpend := tpend.trans spend.symm
  exact ⟨t, absorbed.trans waited, ht.program, ht.resting, ht.buf.trans buf, ht.len.trans len, by rw [ht.h, frame.h, hpend]⟩

/-- ABSORBW w, n takes the n bytes that are lanes 0 to n - 1 of w (30_encoding R89). -/
theorem reaches_absorbWord {s : State} {rest : List HostOp} {v : Word} {k : BitVec 2} {m : List Byte}
    (hm : absorbBytes k v = m) (hs : s.Resting) (hp : s.program = opsAbsorbWord v k ++ rest) :
    ∃ t, Reaches s t ∧ t.program = rest ∧ HasAbsorbed s m t := by
  have nothing := HasAbsorbed.nil_storeDataIn v (opCommand (.absorb k) :: .wait :: rest) hs
  have stored : Reaches s (storeDataIn v { s with program := opCommand (.absorb k) :: .wait :: rest }) :=
    reaches_access hs.busy hs.turns hp rfl (exec_wrDataIn_of_ready v hs.rst hs.err hs.busy)
  obtain ⟨t, absorbed, hprog, ht⟩ := reaches_absorb nothing.resting rfl
  exact ⟨t, stored.trans absorbed, hprog, hm ▸ nothing.append ht⟩

theorem absorbBytes_eq_take (k : BitVec 2) (v : Word) : absorbBytes k v = (le32bytes v).take (k.toNat + 1) := by
  have lanes : le32bytes v = (List.range 4).map (lane v) := rfl
  have hk : k.toNat + 1 ≤ 4 := by have := k.isLt; omega
  rw [lanes, ← List.map_take, List.take_range, min_eq_left hk]
  rfl

theorem absorbBytes_le32 (k : BitVec 2) (b0 b1 b2 b3 : Byte) :
    absorbBytes k (le32 b0 b1 b2 b3) = [b0, b1, b2, b3].take (k.toNat + 1) := by
  rw [absorbBytes_eq_take, le32bytes_le32]

/-- FEED m takes the bytes of m, piece by piece (30_encoding R89). -/
theorem reaches_feed (m : List Byte) {s : State} {rest : List HostOp} (hs : s.Resting) (hp : s.program = opsFeed m ++ rest) :
    ∃ t, Reaches s t ∧ t.program = rest ∧ HasAbsorbed s m t := by
  induction m using opsFeed.induct generalizing s with
  | case1 => exact ⟨s, .refl s, hp, .nil hs⟩
  | case2 b0 => exact reaches_absorbWord (absorbBytes_le32 0 b0 0 0 0) hs hp
  | case3 b0 b1 => exact reaches_absorbWord (absorbBytes_le32 1 b0 b1 0 0) hs hp
  | case4 b0 b1 b2 => exact reaches_absorbWord (absorbBytes_le32 2 b0 b1 b2 0) hs hp
  | case5 b0 b1 b2 b3 m ih =>
    rw [opsFeed, List.append_assoc] at hp
    obtain ⟨t, hst, ht, four⟩ := reaches_absorbWord (absorbBytes_le32 3 b0 b1 b2 b3) hs hp
    obtain ⟨u, htu, hu, others⟩ := ih four.resting ht
    exact ⟨u, hst.trans htu, hu, four.append others⟩

/-! ### UPDATE -/

/-- The resting core t holds in H the fold of `compress` over the padded message m, from s, and is between messages. -/
structure HasUpdated (s : State) (m : List Byte) (t : State) : Prop where
  resting : t.Resting
  done : t.done = true
  buf : t.buf = []
  len : t.len = 0
  h : ∃ bs, splitBlocks (pad m) = some bs ∧ t.h = compressAll bs s.h

theorem tailBlocks_ne_nil {buf : List Byte} (len : DWord) (h : buf.length ≤ 63) : tailBlocks buf len ≠ [] := by
  apply List.ne_nil_of_length_pos
  rw [tailBlocks_length buf len h]
  split <;> omega

/-- FINISH and its WAIT fold `compress` over the padded tail. -/
theorem reaches_finish {s : State} {rest : List HostOp} (hs : s.Resting) (hp : s.program = opCommand .finish :: .wait :: rest) :
    ∃ t, Reaches s t ∧ Waited (queueTail (tailBlocks s.buf s.len) { s with program := .wait :: rest }) rest t := by
  have finished : Reaches s (queueTail (tailBlocks s.buf s.len) { s with program := .wait :: rest }) :=
    reaches_access hs.busy hs.turns hp (decode_command .finish) (exec_finish_of_ready hs.rst hs.err hs.busy)
  obtain ⟨t, waited, ht⟩ := reaches_wait (s := queueTail (tailBlocks s.buf s.len) { s with program := .wait :: rest })
    hs.rst hs.idle.1 hs.err hs.turns (fun _ => tailBlocks_ne_nil s.len hs.bufLength) (Nat.zero_le 63) rfl
  exact ⟨t, finished.trans waited, ht⟩

/-- UPDATE m between messages: the blocks completed while feeding and those of the tail are split(pad(m)) (41_padder_splitter R130). -/
theorem reaches_update {m : List Byte} {s : State} {rest : List HostOp} (hs : s.Resting) (hbuf : s.buf = []) (hlen : s.len = 0)
    (hp : s.program = opsUpdate m ++ rest) : ∃ t, Reaches s t ∧ t.program = rest ∧ HasUpdated s m t := by
  rw [opsUpdate, List.append_assoc] at hp
  obtain ⟨t, fed, ht, absorbed⟩ := reaches_feed m hs hp
  obtain ⟨u, finished, hu⟩ := reaches_finish absorbed.resting ht
  obtain ⟨full, tail, hfull, -, -, -, htail, hsplit⟩ := streamingAgreesWithPadAndSplit m s hbuf hlen
  rw [← absorbed.buf, ← absorbed.len, splitBlocks_padTail, Option.some_inj] at htail
  rw [hs.idle.2, List.nil_append] at hfull
  have hdone : u.done = true := by simp [hu.done, tailBlocks_ne_nil t.len absorbed.resting.bufLength]
  refine ⟨u, fed.trans finished, hu.program, hu.resting, hdone, hu.buf, hu.len, _, hsplit, ?_⟩
  rw [compressAll_append, ← hfull, ← absorbed.h, ← htail]
  exact hu.h

/-- Settles O58: the invariant makes a ready core a resting one, from which UPDATE m runs to its end. -/
theorem updateFoldsCompressOverThePaddedMessage : Obligations.UpdateFoldsCompressOverThePaddedMessage := by
  intro m s hi hready hbetween ht hp
  obtain ⟨hr, hb, he⟩ := (ready_iff s).1 hready
  obtain ⟨-, -, -, hf⟩ := Inv_atRest hi hb
  obtain ⟨hbuf, hlen⟩ : s.buf = [] ∧ s.len = 0 := by simpa [State.betweenMessages] using hbetween
  obtain ⟨t, ⟨k, hk⟩, hprog, resting, done, buf, len, bs, hsplit, hh⟩ :=
    reaches_update (rest := []) ⟨hr, hb, he, ht, hf, hi.bufLength⟩ hbuf hlen (by rw [hp, List.append_nil])
  exact ⟨k, t, bs, hk, hprog, resting.busy, resting.err, done, buf, len, hsplit, hh⟩

/-! ### HASH -/

/-- A DIGEST read with BUSY = 0 returns its register and leaves the core alone (10_state R37). -/
theorem reaches_digestRead {s : State} {off : Offset} {i : Instr} {v : Word} {rest : List HostOp} (hs : s.Resting)
    (hp : s.program = opRead off :: rest) (hdec : decode (memRead off 4) = .ok i)
    (hexec : exec i { s with program := rest } = digestRead 4 v { s with program := rest }) :
    Reaches s (returnValue v { s with program := rest }) ∧ (returnValue v { s with program := rest }).Resting :=
  ⟨reaches_access hs.busy hs.turns hp hdec (hexec.trans (digestRead_idle (s := { s with program := rest }) hs.rst hs.busy v)),
    ⟨hs.rst, hs.busy, hs.err, hs.turns, hs.fin, hs.bufLength⟩⟩

/-- DIGEST reads the four registers of H in order (30_encoding R89). -/
theorem reaches_digest {s : State} (hs : s.Resting) (hp : s.program = opsDigest) :
    ∃ t, Reaches s t ∧ t.program = [] ∧ t.reads = s.h.d :: s.h.c :: s.h.b :: s.h.a :: s.reads := by
  obtain ⟨readA, hs⟩ := reaches_digestRead (v := s.h.a) hs hp rfl rfl
  obtain ⟨readB, hs⟩ := reaches_digestRead (v := s.h.b) hs rfl rfl rfl
  obtain ⟨readC, hs⟩ := reaches_digestRead (v := s.h.c) hs rfl rfl rfl
  obtain ⟨readD, -⟩ := reaches_digestRead (v := s.h.d) hs rfl rfl rfl
  exact ⟨_, readA.trans (readB.trans (readC.trans readD)), rfl, rfl⟩

/-- Settles O59: INIT is accepted with BUSY = 0 whatever ERR is, and leaves a resting core between messages with H = IV. -/
theorem hashReadsTheDigestOfTheMessage : Obligations.HashReadsTheDigestOfTheMessage := by
  intro m s hi hr hb ht hp
  have initialised : Reaches s (acceptInit { s with program := opsUpdate m ++ opsDigest }) :=
    reaches_access hb ht hp (decode_command .init) (exec_toInstr_of_accepted .init hr hb fun _ => rfl)
  have resting : (acceptInit { s with program := opsUpdate m ++ opsDigest }).Resting := ⟨hr, hb, rfl, ht, rfl, Nat.zero_le 63⟩
  obtain ⟨t, updated, hprog, rest, -, -, -, bs, hsplit, hh⟩ := reaches_update resting rfl rfl rfl
  obtain ⟨u, digested, hend, hreads⟩ := reaches_digest rest hprog
  obtain ⟨k, hk⟩ := initialised.trans (updated.trans digested)
  rw [hh] at hreads
  exact ⟨k, u, bs, t.reads, hk, hend, hsplit, hreads⟩

end Sys2Proof.Machine
end

section
/-! The checks of a write and the error record: the order of the checks, what a write that is not performed leaves alone, and that the record is kept until INIT or reset (60_exceptions R210 to R222). -/

namespace Sys2Proof.Machine

/-! ### Every step is a next state (R221) -/

theorem runRequest_next (r : Request) (s : State) : ∃ t, runRequest r s = .next t := by
  rcases runRequest_cases r s with ⟨t, h, -⟩ | ⟨e, -, -, -, -, h⟩ | ⟨-, -, c, t, -, -, -, h⟩ | ⟨-, -, -, v, -, h⟩
  · exact ⟨t, h⟩
  · exact ⟨_, h⟩
  · exact ⟨t, h⟩
  · exact ⟨_, h⟩

/-- Settles O9: only the acceptance of a command could stop a step, and `runRequest_cases` says that each one completes. -/
theorem noStepFaultsOrIsRefused : Obligations.NoStepFaultsOrIsRefused := by
  intro s
  rcases step_cases s with ⟨-, h⟩ | ⟨-, h⟩ | ⟨level, -, h⟩
  · rw [h]
    rcases hostMove_cases { s with turns := s.turns.tail } with ⟨t, hmove, -⟩ | ⟨r, rest, -, hmove⟩
    · exact ⟨t, hmove⟩
    · rw [hmove]
      exact runRequest_next r _
  · exact ⟨_, h⟩
  · exact ⟨_, h⟩

/-! ### What the checks decide for a write request (R217) -/

theorem runRequest_of_ignore {r : Request} {s : State} (hw : r.write = true)
    (h : checkWrite r.off r.size r.wdata s = .ignore) : runRequest r s = .next s := by
  rw [memWrite_eta hw, runRequest_memWrite, busWrite_of_ignore h]

theorem runRequest_of_reject {r : Request} {s : State} {e : ErrorCode} (hw : r.write = true)
    (h : checkWrite r.off r.size r.wdata s = .reject e) : runRequest r s = .next (raiseError e s) := by
  rw [memWrite_eta hw, runRequest_memWrite, busWrite_of_reject h]

/-- Settles O11: the check of BUSY comes before every check of the request. -/
theorem busyRefusesEveryWrite : Obligations.BusyRefusesEveryWrite :=
  fun _ _ hw hr he hb => runRequest_of_reject hw (checkWrite_of_busy _ _ _ hr he hb)

/-- While ERR = 1 the one write performed is the word of INIT, with BUSY = 0 (R216). -/
theorem runRequest_ignored_of_err {r : Request} {s : State} (hw : r.write = true) (hr : s.rst = false) (he : s.err = true)
    (h : r ≠ memWrite offCmd 4 (encodeCommand .init) ∨ s.busy = true) : runRequest r s = .next s := by
  apply runRequest_of_ignore hw
  rw [checkWrite_of_err _ _ _ hr he, if_neg]
  intro hrec
  obtain ⟨hoff, hsize, hword, hb⟩ := (isRecovery_iff _ _ _ _).1 hrec
  rcases h with hne | hbusy
  · exact hne (by rw [memWrite_eta hw, hoff, hsize, hword])
  · simp [hb] at hbusy

/-- INIT with BUSY = 0 is performed whether or not an error is recorded (R216, R222). -/
theorem runRequest_init {s : State} (hr : s.rst = false) (hb : s.busy = false) :
    runRequest (memWrite offCmd 4 (encodeCommand .init)) s = .next (acceptInit s) := by
  rw [runRequest_of_decode (decode_command .init)]
  exact exec_toInstr_of_accepted .init hr hb fun _ => rfl

/-- The causes of an ADDRESS error as R211 lists them. -/
theorem badAddress_iff_listed (off : Offset) (size : Nat) :
    badAddress off size = true ↔ size ≠ 4 ∨ off.toNat % 4 ≠ 0 ∨ (off ≠ offCmd ∧ off ≠ offDataIn) := by
  simp [badAddress, or_assoc]

/-- Settles O10, by the first check that applies. -/
theorem writeChecksApplyInOrder : Obligations.WriteChecksApplyInOrder := by
  intro off n v s hr
  by_cases he : s.err = true
  · rw [if_pos he]
    by_cases hinit : off = 0x00 ∧ n = 4 ∧ v = 0x00000001 ∧ s.busy = false
    · rw [if_pos hinit]
      obtain ⟨rfl, rfl, rfl, hb⟩ := hinit
      exact runRequest_init hr hb
    · rw [if_neg hinit]
      apply runRequest_ignored_of_err rfl hr he
      by_contra hnot
      obtain ⟨hreq, hb⟩ := not_or.1 hnot
      obtain ⟨hoff, hsize, hword⟩ := memWrite_inj (not_not.1 hreq)
      exact hinit ⟨hoff, hsize, hword, by simpa using hb⟩
  rw [if_neg he]
  have he : s.err = false := by simpa using he
  by_cases hb : s.busy = true
  · rw [if_pos hb]
    exact busyRefusesEveryWrite (memWrite off n v) s rfl hr he hb
  rw [if_neg hb]
  have hb : s.busy = false := by simpa using hb
  by_cases hbad : n ≠ 4 ∨ off.toNat % 4 ≠ 0 ∨ (off ≠ 0x00 ∧ off ≠ 0x08)
  · rw [if_pos hbad]
    exact runRequest_badAddress v ((badAddress_iff_listed off n).2 hbad) hr he hb
  rw [if_neg hbad]
  have hgood : ¬ badAddress off n = true := mt (badAddress_iff_listed off n).1 hbad
  by_cases hillegal : off = 0x00 ∧ legalCommand v = false
  · rw [if_pos hillegal]
    obtain ⟨rfl, hlegal⟩ := hillegal
    obtain rfl : n = 4 := by
      by_contra hsize
      exact hbad (.inl hsize)
    exact runRequest_illegal hlegal hr he hb
  · rw [if_neg hillegal, runRequest_memWrite]
    apply busWrite_of_perform
    rw [checkWrite_of_ready _ _ _ ((ready_iff s).2 ⟨hr, hb, he⟩), if_neg hgood]
    exact if_neg hillegal

/-- A read completes, and the core is as it was (20_memory R52). -/
theorem runRequest_read_next {r : Request} (hw : r.write = false) (s : State) :
    ∃ t, runRequest r s = .next t ∧ s.SameCore t := by
  rcases runRequest_read r hw s with ⟨i, -, hi, h⟩ | ⟨-, h⟩
  · obtain ⟨t, hexec, hcore, -⟩ := exec_read_next i s hi
    exact ⟨t, h.trans hexec, hcore⟩
  · exact ⟨_, h, SameCore_returnValue s 0⟩

/-- Settles O12: the causes of an ADDRESS error are those of the check, and a read is no write. -/
theorem addressErrorsComeFromWritesOnly : Obligations.AddressErrorsComeFromWritesOnly := by
  refine fun r s => ⟨fun hw hr he hb hbad => ?_, fun hw => ?_⟩
  · exact runRequest_write_badAddress hw ((badAddress_iff_listed _ _).2 hbad) hr he hb
  · obtain ⟨t, h, hcore⟩ := runRequest_read_next hw s
    exact ⟨t, h, hcore.err, hcore.errcode⟩

theorem SameButError_raiseError (e : ErrorCode) (s : State) : s.SameButError (raiseError e s) :=
  ⟨rfl, rfl, rfl, rfl, rfl, rfl, rfl, rfl, rfl, rfl, rfl⟩

/-- Settles O14: an ignored write gives back its state, and raising an error touches the error record only. -/
theorem rejectedWriteChangesOnlyTheErrorRecord : Obligations.RejectedWriteChangesOnlyTheErrorRecord := by
  intro r s t hw hc h
  cases hv : checkWrite r.off r.size r.wdata s with
  | ignore =>
    rw [runRequest_of_ignore hw hv] at h
    injection h with h
    subst h
    exact ⟨(SameCore_refl s).toSameButError, ⟨rfl, rfl, rfl⟩, rfl, rfl, fun _ => rfl, by simp⟩
  | reject e =>
    rw [runRequest_of_reject hw hv] at h
    injection h with h
    subst h
    refine ⟨SameButError_raiseError e s, ⟨rfl, rfl, rfl⟩, rfl, rfl, by simp, fun e' he' => ?_⟩
    injection he' with he'
    subst he'
    exact ⟨rfl, rfl⟩
  | perform => exact absurd hv hc

/-! ### Reads and core steps do not depend on the error record (R216) -/

/-- The state with no error recorded. -/
def withoutError (s : State) : State := { s with err := false, errcode := 0 }

theorem busRead_withoutError {n : Nat} {v : Word} {s t : State} (h : busRead n v s = .next t) :
    busRead n v (withoutError s) = .next (withoutError t) := by
  injection h with h
  subst h
  rfl

theorem digestRead_withoutError {n : Nat} {v : Word} {s t : State} (h : digestRead n v s = .next t) :
    digestRead n v (withoutError s) = .next (withoutError t) := by
  rcases digestRead_cases n v s with ⟨hzero, hd⟩ | ⟨hzero, hbusy, hd⟩ | ⟨hzero, hidle, hd⟩
  · obtain rfl : returnValue 0 s = t := by injection hd.symm.trans h
    exact if_pos hzero
  · obtain rfl : freeDigestRead s = t := by injection hd.symm.trans h
    exact (if_neg (ne_true_of_eq_false hzero)).trans (if_pos hbusy)
  · obtain rfl : returnValue v s = t := by injection hd.symm.trans h
    exact (if_neg (ne_true_of_eq_false hzero)).trans (if_neg (ne_true_of_eq_false hidle))

/-- No register but STATUS shows the error record, and STATUS only to a read of 32 bits. -/
theorem exec_read_withoutError {i : Instr} {s t : State} (hi : isRead i = true) (hstatus : i ≠ .rdStatus 4)
    (h : exec i s = .next t) : exec i (withoutError s) = .next (withoutError t) := by
  cases i with
  | rdStatus n =>
    have hn : n ≠ 4 := fun hn => hstatus (by rw [hn])
    have hzero : ∀ u : State, exec (.rdStatus n) u = busRead n 0 u := fun u => by
      rw [busRead_zero]
      exact busRead_of_readsZero (by simp [readsZero, hn]) u.statusWord
    rw [hzero] at h ⊢
    exact busRead_withoutError h
  | rdDigest0 n | rdDigest1 n | rdDigest2 n | rdDigest3 n => exact digestRead_withoutError h
  | nop | init | absorb k | finish | wrCmd n v | wrDataIn n v => simp [isRead] at hi
  | _ => exact busRead_withoutError h

theorem coreStep_withoutError (s : State) : coreStep (withoutError s) = withoutError (coreStep s) := by
  rcases coreStep_cases s with ⟨h, hidle⟩ | ⟨hr, ha, b, rest, hp, h⟩ | ⟨hr, ha, h63, h⟩ | ⟨hr, ha, h63, h⟩
  · rw [h]
    rcases hidle with hrst | hb
    · exact if_pos hrst
    · exact coreStep_of_not_busy (s := withoutError s) hb
  · rw [h]
    exact coreStep_start (s := withoutError s) hr ha hp
  · rw [h]
    exact coreStep_round (s := withoutError s) hr ha h63
  · rw [coreStep_last hr ha h63]
    exact coreStep_last (s := withoutError s) hr ha h63

/-- Settles O13: the writes by the checks, the reads and the core's steps by what they read. -/
theorem errorIsStickyUntilInitOrReset : Obligations.ErrorIsStickyUntilInitOrReset :=
  fun s hr he => ⟨fun _ hw h => runRequest_ignored_of_err hw hr he h, runRequest_init hr,
    fun _ _ hi hstatus h => exec_read_withoutError hi hstatus h, busRead_word hr s.statusWord, coreStep_withoutError s,
    fun _ => ⟨rfl, rfl⟩⟩

/-! ### The first error is kept (R212) -/

theorem coreStep_errorRecord (s : State) : (coreStep s).err = s.err ∧ (coreStep s).errcode = s.errcode := by
  rcases coreStep_cases s with ⟨h, -⟩ | ⟨-, -, b, rest, -, h⟩ | ⟨-, -, -, h⟩ | ⟨-, -, -, h⟩ <;> rw [h] <;> exact ⟨rfl, rfl⟩

/-- Every step keeps the error record, or clears ERR, or finds ERR = 0 and records one of the three codes of R210. -/
theorem step_errorRecord_cases {s t : State} (h : step s = .next t) :
    (t.err = s.err ∧ t.errcode = s.errcode) ∨ t.err = false ∨
    (s.err = false ∧ ∃ e, (e = ErrorCode.busy ∨ e = .address ∨ e = .illegal) ∧ t.errcode = errorNumber e) := by
  rcases step_inversion h with ⟨-, hc, -⟩ | ⟨-, he, -, -, -, -, hcode⟩ | ⟨-, -, c, p, -, -, ha⟩ | ⟨-, -, -, -, v, p, -, rfl⟩ |
    ⟨-, rfl⟩ | ⟨-, level, rfl⟩
  · exact .inl ⟨hc.err, hc.errcode⟩
  · exact .inr (.inr ⟨he, hcode⟩)
  · rcases acceptCommand_init_or ha with ⟨-, -, herr, -⟩ | ⟨-, -, hkeep⟩
    · exact .inr (.inl herr)
    · exact .inl hkeep
  · exact .inl ⟨rfl, rfl⟩
  · exact .inl (coreStep_errorRecord { s with turns := s.turns.tail })
  · exact .inr (.inl rfl)

/-- Settles O15: by the three things a step can do to the error record. -/
theorem firstErrorIsKept : Obligations.FirstErrorIsKept := by
  intro s t h
  rcases step_errorRecord_cases h with ⟨herr, hcode⟩ | hclear | ⟨hnone, e, he, hcode⟩
  · exact ⟨fun _ _ => hcode, fun hs ht => by simp [herr, hs] at ht⟩
  · simp [hclear]
  · refine ⟨fun hs => by simp [hnone] at hs, fun _ _ => ?_⟩
    rcases he with rfl | rfl | rfl
    · exact .inl hcode
    · exact .inr (.inr hcode)
    · exact .inr (.inl hcode)

end Sys2Proof.Machine
end

section
/-! Reset and hazards: what an edge of the reset input leaves and what it holds while asserted, INIT beside reset, BUSY within the write that queues a block, and the bound on the compression (70_reset R240 to R249). -/

namespace Sys2Proof.Machine

/-! ### The bound on the compression (R248, R249) -/

/-- From an active core the rounds that are left end the block. -/
theorem coreSteps_remainingRounds {s : State} (hr : s.rst = false) (ha : s.active = true) {n : Nat}
    (hn : s.rnd.val + n = 63) : ∃ w, coreSteps (n + 1) s = endOfBlock { s with w := w } := by
  induction n generalizing s with
  | zero => exact ⟨_, coreStep_last hr ha (Fin.ext hn)⟩
  | succ n ih =>
    have hnext : (s.rnd + 1).val = s.rnd.val + 1 := by
      rw [Fin.val_add]
      exact Nat.mod_eq_of_lt (show s.rnd.val + 1 < 64 by omega)
    obtain ⟨w, hw⟩ := ih (s := { s with w := oneRound s.rnd s.x s.w, rnd := s.rnd + 1 }) hr ha (by rw [hnext]; omega)
    refine ⟨w, ?_⟩
    rw [coreSteps, coreStep_round hr ha (by omega), hw]
    rfl

/-- 65 steps a block leave a core that is not compressing with BUSY = 0. -/
theorem not_busy_coreSteps_pend {s : State} (hr : s.rst = false) (ha : s.active = false) :
    (coreSteps (65 * s.pend.length) s).busy = false := by
  obtain ⟨-, -, empty, idle⟩ := coreStepsComputeCompress s hr ha
  exact (busy_eq_false_iff _).2 ⟨idle, empty⟩

/-- What is left of the block in work takes at most 64 steps, and each further block 65. -/
theorem coreSteps_reach_not_busy {s : State} (hi : s.Inv) : ∃ k, k ≤ 130 ∧ (coreSteps k s).busy = false := by
  have hpend := hi.pendLength
  cases hr : s.rst with
  | true =>
    have hreset := hi.inReset hr
    exact ⟨0, by omega, (busy_eq_false_iff s).2 ⟨hreset.active, hreset.pend⟩⟩
  | false =>
    cases ha : s.active with
    | false => exact ⟨65 * s.pend.length, by omega, not_busy_coreSteps_pend hr ha⟩
    | true =>
      obtain ⟨w, hend⟩ := coreSteps_remainingRounds hr ha (n := 63 - s.rnd.val) (by omega)
      refine ⟨63 - s.rnd.val + 1 + 65 * s.pend.tail.length, by rw [List.length_tail]; omega, ?_⟩
      rw [coreSteps_add, hend]
      exact not_busy_coreSteps_pend (s := endOfBlock { s with w := w }) hr rfl

/-- While BUSY = 1 a transaction is a read, an ignored write or an error (60_exceptions R213). -/
theorem SameButError_of_runRequest_busy {r : Request} {s t : State} (hb : s.busy = true) (h : runRequest r s = .next t) :
    s.SameButError t := by
  rcases runRequest_cases r s with ⟨u, hu, hc, -⟩ | ⟨e, -, -, -, -, hu⟩ | ⟨-, hidle, -⟩ | ⟨-, hidle, -⟩
  · obtain rfl : u = t := by injection hu.symm.trans h
    exact hc.toSameButError
  · obtain rfl : raiseError e s = t := by injection hu.symm.trans h
    exact SameButError_raiseError e s
  · simp [hb] at hidle
  · simp [hb] at hidle

theorem SameButError_of_hostMove_busy {s t : State} (hb : s.busy = true) (h : hostMove s = .next t) : s.SameButError t := by
  rcases hostMove_cases s with ⟨u, hu, hc, -⟩ | ⟨r, rest, -, hu⟩
  · obtain rfl : u = t := by injection hu.symm.trans h
    exact hc.toSameButError
  · have hc := SameButError_of_runRequest_busy (s := { s with program := rest }) hb (hu.symm.trans h)
    exact ⟨hc.h, hc.w, hc.x, hc.rnd, hc.active, hc.pend, hc.buf, hc.len, hc.fin, hc.dataIn, hc.done⟩

/-- Settles O44: 64 steps for the block in work and 65 for the one behind it, or 65 for each of two pending. -/
theorem compressionEndsWithin130Steps : Obligations.CompressionEndsWithin130Steps :=
  ⟨fun _ => coreSteps_reach_not_busy, fun _ _ => SameButError_of_hostMove_busy⟩

/-! ### BUSY within the accepting write (R244) -/

theorem busy_iff_pend_of_idle {s : State} (ha : s.active = false) : s.busy = true ↔ 0 < s.pend.length := by
  simp [State.busy, ha, List.length_pos_iff]

/-- ABSORB queues a block exactly when its bytes complete one. -/
theorem acceptAbsorb_busy_iff {s : State} (k : BitVec 2) (hb : s.busy = false) (hbuf : s.buf.length ≤ 63) :
    (acceptAbsorb k s).busy = true ↔ 64 ≤ s.buf.length + (k.toNat + 1) := by
  obtain ⟨ha, hp⟩ := (busy_eq_false_iff s).1 hb
  have hactive := (absorbAll_frame (absorbBytes k s.dataIn) { s with done := false }).active
  have hpend := absorbAll_pendLength (absorbBytes k s.dataIn) { s with done := false } hbuf
  rw [← acceptAbsorb_eq] at hactive hpend
  rw [busy_iff_pend_of_idle (hactive.trans ha), hpend, absorbBytes_length]
  simp only [hp, List.length_nil]
  omega

/-- Settles O23: the padded tail is never empty, and ABSORB queues the block that its bytes complete. -/
theorem busyShowsWithinTheAcceptingWrite : Obligations.BusyShowsWithinTheAcceptingWrite := by
  refine fun s t hr he hb hbuf => ⟨fun h => ?_, fun k h => ?_⟩
  · obtain rfl : queueTail (tailBlocks s.buf s.len) s = t := by injection (exec_finish_of_ready hr he hb).symm.trans h
    simp [State.busy, tailBlocks_ne_nil s.len hbuf]
  · obtain rfl : acceptAbsorb k s = t := by injection (exec_toInstr_of_ready (.absorb k) hr he hb).symm.trans h
    exact acceptAbsorb_busy_iff k hb hbuf

/-! ### The edges of reset, and reset held (R240) -/

theorem CoreReset_applyReset (level : Bool) (s : State) : (applyReset level s).CoreReset := by constructor <;> rfl

theorem step_of_assertRst {s : State} (h : nextTurn s = .assertRst) :
    step s = .next (applyReset true { s with turns := s.turns.tail }) := by
  rw [step, moveNext, h, move]

theorem step_of_releaseRst {s : State} (h : nextTurn s = .releaseRst) :
    step s = .next (applyReset false { s with turns := s.turns.tail }) := by
  rw [step, moveNext, h, move]

theorem coreStep_of_rst {s : State} (hr : s.rst = true) : coreStep s = s := if_pos hr

/-- A read issued while `rst` is asserted returns 0, at every offset and of every size. -/
theorem runRequest_read_of_rst {r : Request} {s : State} (hw : r.write = false) (hr : s.rst = true) :
    runRequest r s = .next (returnValue 0 s) := by
  have hzero (n : Nat) : readsZero n s = true := by simp [readsZero, hr]
  rcases runRequest_read r hw s with ⟨i, -, hi, hx⟩ | ⟨-, hx⟩
  · rcases exec_read_busRead_or_free i s hi with ⟨v, hv⟩ | ⟨hnonzero, -⟩
    · rw [hx, hv s (SameCore_refl s) rfl, busRead_of_readsZero (hzero _)]
    · simp [hzero] at hnonzero
  · exact hx

/-- Settles O55: the two edges are the two levels of `applyReset`, and while `rst` is asserted the checks ignore every write. -/
theorem resetGivesEveryElementItsValue : Obligations.ResetGivesEveryElementItsValue := by
  refine ⟨fun s hturn => ?_, fun s hr => ⟨coreStep_of_rst hr, fun r hw => ?_, fun r hw => runRequest_read_of_rst hw hr⟩⟩
  · rcases hturn with h | h
    · exact ⟨_, step_of_assertRst h, CoreReset_applyReset true _, by simp [h], rfl, rfl, rfl⟩
    · exact ⟨_, step_of_releaseRst h, CoreReset_applyReset false _, by simp [h], rfl, rfl, rfl⟩
  · exact runRequest_of_ignore hw (checkWrite_of_rst _ _ _ hr)

/-! ### INIT beside reset (R241) -/

/-- STATUS reads 0 when every field of it is 0 (10_state R35). -/
theorem statusWord_eq_zero {s : State} (hbuf : s.buf = []) (hcode : s.errcode = 0) (herr : s.err = false)
    (hdone : s.done = false) (hb : s.busy = false) : s.statusWord = 0 := by
  rw [State.statusWord, State.cnt, hbuf, hcode, herr, hdone, hb]
  decide

/-- DATA_IN apart, each register reads one value after INIT and after reset. -/
theorem exec_read_acceptInit_applyReset {i : Instr} {s : State} (hb : s.busy = false) (hi : isRead i = true)
    (hdata : i ≠ .rdDataIn 4) :
    ∃ n v, exec i (acceptInit s) = busRead n v (acceptInit s) ∧
      exec i (applyReset false s) = busRead n v (applyReset false s) := by
  have hinit : (acceptInit s).busy = false := hb
  have digest (n : Nat) (v : Word) : digestRead n v (acceptInit s) = busRead n v (acceptInit s) ∧
      digestRead n v (applyReset false s) = busRead n v (applyReset false s) :=
    ⟨digestRead_eq_busRead (.inr hinit) v, digestRead_eq_busRead (.inr rfl) v⟩
  cases i with
  | rdStatus n =>
    have hzero {u : State} (h : u.statusWord = 0) : exec (.rdStatus n) u = busRead n 0 u := congrArg (busRead n · u) h
    exact ⟨n, 0, hzero (statusWord_eq_zero rfl rfl rfl rfl hinit), hzero (statusWord_eq_zero rfl rfl rfl rfl rfl)⟩
  | rdDataIn n =>
    have hn : n ≠ 4 := fun hn => hdata (by rw [hn])
    have hzero (u : State) : exec (.rdDataIn n) u = busRead n 0 u := by
      rw [busRead_zero]
      exact busRead_of_readsZero (by simp [readsZero, hn]) u.dataIn
    exact ⟨n, 0, hzero _, hzero _⟩
  | rdDigest0 n => exact ⟨n, iv.a, digest n iv.a⟩
  | rdDigest1 n => exact ⟨n, iv.b, digest n iv.b⟩
  | rdDigest2 n => exact ⟨n, iv.c, digest n iv.c⟩
  | rdDigest3 n => exact ⟨n, iv.d, digest n iv.d⟩
  | nop | init | absorb k | finish | wrCmd n v | wrDataIn n v => simp [isRead] at hi
  | _ => exact ⟨_, _, rfl, rfl⟩

/-- Settles O57: the two states read one value at every such register, and both are out of reset. -/
theorem initAndResetReadAlike : Obligations.InitAndResetReadAlike := by
  intro s i hr hb hi hdata
  obtain ⟨n, v, hinit, hreset⟩ := exec_read_acceptInit_applyReset hb hi hdata
  refine ⟨acceptInit s, _, _, exec_toInstr_of_accepted .init hr hb fun _ => rfl, hinit, hreset, ?_⟩
  simp [readsZero, hr]

/-! ### Ready right after reset (R242) -/

/-- Settles O56: reset leaves a ready core, where a command is its acceptance and none raises an error. -/
theorem readyRightAfterReset : Obligations.ReadyRightAfterReset := by
  refine ⟨CoreReset_applyReset false State.reset, rfl, rfl, statusWord_eq_zero rfl rfl rfl rfl rfl, fun c => ?_⟩
  obtain ⟨t, ht⟩ := acceptCommand_next c State.reset
  refine ⟨t, (exec_toInstr_of_ready c rfl rfl rfl).trans ht, ht, ?_⟩
  rcases acceptCommand_init_or ht with ⟨-, -, herr, -⟩ | ⟨-, -, herr, -⟩
  · exact herr
  · exact herr

end Sys2Proof.Machine
end
